-- ==== Sys2Proof/Word.lean ====
section
/-! DEFINITION. The words of the two modules: a byte, the 64-bit value word, the 62-bit VarInt, and the eight byte lanes
of a module's parallel port (00_scope.md R7, R8; 10_state.md R14; 40_construction.md R60). -/

namespace Sys2Proof

/-- A byte is 8 bits (R8). -/
abbrev Byte := BitVec 8

/-- The width of `enc_value` and `dec_value` (R6 `IN_BITS`, R11, R13). -/
abbrev Word64 := BitVec 64

/-- A VarInt: "a 62-bit vector read as an unsigned number" (R60). The bound of R61 is in the type; equality and order
are those of the 62-bit value (R70). -/
abbrev VarInt := BitVec 62

/-- The eight byte lanes of one module, lane 0 the first byte on the wire (R8, R14). -/
structure Lanes where
  b0 : Byte
  b1 : Byte
  b2 : Byte
  b3 : Byte
  b4 : Byte
  b5 : Byte
  b6 : Byte
  b7 : Byte
  deriving DecidableEq, Repr, Inhabited

end Sys2Proof
end

