-- ==== Sys2Proof/Config.lean ====
section
/-! DEFINITION. The fixed constants (00_scope.md R5, R6), the open parameter of the reference harness, and the free
values: constants without a body, one for each value the spec leaves unspecified. -/

namespace Sys2Proof

/-- The four tiers T1, T2, T4, T8 (R9, R40). -/
inductive Tier where
  | t1
  | t2
  | t4
  | t8
  deriving DecidableEq, Repr

namespace Config

/-- Width of a VarInt value (R5). -/
def valueBits : Nat := 62

/-- `BOUND`, the smallest rejected input, 2^62 (R5). -/
def bound : Nat := 4611686018427387904

/-- `MAX`, the largest VarInt, 2^62 - 1 (R5, R71). -/
def maxValue : Nat := 4611686018427387903

/-- `MAX_SIZE`, the largest encoded length in bytes, and the lane count `LANES` (R5, R6, R71). -/
def maxSize : Nat := 8

/-- `TAG_BITS` (R5). -/
def tagBits : Nat := 2

/-- `IN_BITS`, the width of the encoder's value input (R6). -/
def inBits : Nat := 64

/-- `CAP`, the capacity of the harness's buffer, at reset: an OPEN parameter of the spec (R6, R19, U12). No body: a
statement holds for every capacity. DESIGN CHOICE (entry 3), safe. -/
opaque cap : Nat

/-- FREE VALUE: the pins `enc_byte[0..7]` of an evaluation with `enc_ok = 0` ("lanes unspecified", R12, U3), numbered
by `State.tick`. DESIGN CHOICE (entry 5), safe. -/
opaque freeLanes : Nat → Lanes

/-- FREE VALUE: the pins `dec_value` of an evaluation with `dec_ok = 0` (R15, R98, U4), numbered by `State.tick`.
DESIGN CHOICE (entry 5), safe. -/
opaque freeValue : Nat → Word64

/-- FREE VALUE: what the decoder's lanes at and above `src_avail` carry ("the other lanes carry anything", R20, U11),
numbered by `State.tick`. DESIGN CHOICE (entry 6), safe. -/
opaque floatLanes : Nat → Lanes

end Config

end Sys2Proof
end

