-- ==== Sys2Proof/Syntax.lean ====
section
/-! DEFINITION. The operations of the hardware, one constructor per row of spec/opcode_table.json. -/

namespace Sys2Proof

/-- The rows of the operation table (30_encoding.md R54). Group a: a wire item seen by the decoder, with its value
field. Group b: a row of the encoder's format map, with the value it packs. Group c: the operations and
pseudo-operations of R52 and R53 with their operands. -/
inductive Instr where
  /-- `DEC.T1`, R92: an item of format W1, 6 value bits. -/
  | decT1 (v : BitVec 6)
  /-- `DEC.T2`, R93: an item of format W2, 14 value bits. -/
  | decT2 (v : BitVec 14)
  /-- `DEC.T4`, R94: an item of format W4, 30 value bits. -/
  | decT4 (v : BitVec 30)
  /-- `DEC.T8`, R95: an item of format W8, 62 value bits. -/
  | decT8 (v : BitVec 62)
  /-- `ENC.T1`, R76: `ENC r` with `0 <= r < 2^6`. -/
  | encT1 (v : BitVec 6)
  /-- `ENC.T2`, R77: `ENC r` with `2^6 <= r < 2^14`. -/
  | encT2 (v : BitVec 14)
  /-- `ENC.T4`, R78: `ENC r` with `2^14 <= r < 2^30`. -/
  | encT4 (v : BitVec 30)
  /-- `ENC.T8`, R79: `ENC r` with `2^30 <= r < 2^62`. -/
  | encT8 (v : BitVec 62)
  /-- `ENC.RANGE`, R63 and R49 row 0: `ENC r` with `r >= 2^62`. -/
  | encRange (r : Word64)
  /-- `ENC`, R75: the raw value on `enc_value`. -/
  | enc (r : Word64)
  /-- `DEC`, R91: the item at the read position. -/
  | dec
  /-- `SIZE`, R73 and the script line `SIZE <r>` of R52. -/
  | size (r : Word64)
  /-- `ENCODED_SIZE`, R90: of a given byte (`some b`), or of the first unread byte (`none`, the script line `ESIZE` of
  R52). -/
  | encodedSize (b : Option Byte)
  /-- `FROM_U8`, R64. -/
  | fromU8 (b : BitVec 8)
  /-- `FROM_U16`, R65. -/
  | fromU16 (h : BitVec 16)
  /-- `FROM_U32`, R66. -/
  | fromU32 (w : BitVec 32)
  /-- `TRY_FROM_U64`, R63. -/
  | tryFromU64 (r : Word64)
  /-- `TRY_FROM_USIZE`, R67: a platform word of `width` bits, zero-extended onto 64 bits. -/
  | tryFromUsize (width : Nat) (w : Word64)
  /-- `INTO_U64`, R69. -/
  | intoU64 (x : VarInt)
  deriving DecidableEq, Repr

end Sys2Proof
end

