-- ==== Sys2Proof/WellFormed.lean ====
section
/-! DEFINITION. Which terms of Instr are operations the spec's table has: the operand ranges of the encoder's format map
(30_encoding.md R49, the table's `lo`..`hi`) and the width of a platform word (40_construction.md R67). -/

namespace Sys2Proof

/-- The operand lies in the range its row of the table has. "No other tier may be used for a given value" (R49, R74):
an encoder row with a smaller value is no operation of the hardware. -/
def Instr.wf : Instr → Bool
  | .decT1 _ => true
  | .decT2 _ => true
  | .decT4 _ => true
  | .decT8 _ => true
  | .encT1 _ => true
  | .encT2 v => decide (2 ^ 6 ≤ v.toNat)
  | .encT4 v => decide (2 ^ 14 ≤ v.toNat)
  | .encT8 v => decide (2 ^ 30 ≤ v.toNat)
  | .encRange r => decide (2 ^ 62 ≤ r.toNat)
  | .enc _ => true
  | .dec => true
  | .size _ => true
  | .encodedSize _ => true
  | .fromU8 _ => true
  | .fromU16 _ => true
  | .fromU32 _ => true
  | .tryFromU64 _ => true
  | .tryFromUsize width w => decide (width ≤ 64) && decide (w.toNat < 2 ^ width)
  | .intoU64 _ => true

end Sys2Proof
end

