-- ==== Sys2Proof/Decode.lean ====
section
/-! DEFINITION. The wire formats (30_encoding.md R40 to R48), the decoder of wire bytes to the table's group a rows, the
encoder's format map over `enc_value` to the group b rows (R49, R54), and the bytes of each row's encoding. -/

namespace Sys2Proof

/-- Total bytes of a tier (R40, R45). -/
def Tier.len : Tier → Nat
  | .t1 => 1
  | .t2 => 2
  | .t4 => 4
  | .t8 => 8

/-- The tag of a tier, `tag(n) = log2(n)` (R45). -/
def Tier.tag : Tier → Nat
  | .t1 => 0
  | .t2 => 1
  | .t4 => 2
  | .t8 => 3

/-- A row of the table that is selected by a mask and a match over `n` bits. -/
structure MaskRow (n : Nat) (α : Type) where
  mask : BitVec n
  pat : BitVec n
  row : α
  deriving DecidableEq, Repr

/-- A row applies when `x & mask == match` (R54). -/
def MaskRow.applies {n : Nat} {α : Type} (r : MaskRow n α) (x : BitVec n) : Bool :=
  (x &&& r.mask) == r.pat

/-- Group a of the table: mask 0xC0 and match of the first byte (R54 (a)). -/
def wireRows : List (MaskRow 8 Tier) :=
  [⟨0xC0#8, 0x00#8, .t1⟩, ⟨0xC0#8, 0x40#8, .t2⟩, ⟨0xC0#8, 0x80#8, .t4⟩, ⟨0xC0#8, 0xC0#8, .t8⟩]

/-- Group b of the table in ascending priority: `none` is `ENC.RANGE`, the catch-all (R54 (b)). -/
def encRows : List (MaskRow 64 (Option Tier)) :=
  [⟨0xFFFFFFFFFFFFFFC0#64, 0#64, some .t1⟩, ⟨0xFFFFFFFFFFFFC000#64, 0#64, some .t2⟩,
   ⟨0xFFFFFFFFC0000000#64, 0#64, some .t4⟩, ⟨0xC000000000000000#64, 0#64, some .t8⟩,
   ⟨0#64, 0#64, none⟩]

/-- Why a byte string gives no item: it is empty, or shorter than its first byte demands. "A byte string can fail to
decode for one reason only" (R50). -/
inductive DecodeError where
  | noFirstByte
  | shortRead (wanted : Nat)
  deriving DecidableEq, Repr

/-- The tier a first byte announces. The four rows cover all 256 bytes (R50); the last alternative is never taken. -/
def wireTier (b : Byte) : Tier :=
  match wireRows.find? (fun r => r.applies b) with
  | some r => r.row
  | none => .t8

/-- The item at the head of a byte string, and the bytes after it: the value is bits 5:0 of the first byte and all
bits of each further byte, most significant first (R41 to R44, R46). -/
def decode : List Byte → Except DecodeError (Instr × List Byte)
  | [] => .error .noFirstByte
  | b0 :: rest =>
    match wireTier b0, rest with
    | .t1, rest => .ok (.decT1 (b0.extractLsb' 0 6), rest)
    | .t2, b1 :: rest => .ok (.decT2 (b0.extractLsb' 0 6 ++ b1), rest)
    | .t4, b1 :: b2 :: b3 :: rest => .ok (.decT4 (b0.extractLsb' 0 6 ++ b1 ++ b2 ++ b3), rest)
    | .t8, b1 :: b2 :: b3 :: b4 :: b5 :: b6 :: b7 :: rest =>
      .ok (.decT8 (b0.extractLsb' 0 6 ++ b1 ++ b2 ++ b3 ++ b4 ++ b5 ++ b6 ++ b7), rest)
    | t, _ => .error (.shortRead t.len)

/-- The row of the encoder's format map that a raw value reaches, first match in ascending priority, with the value
field of its format (R49, R54 (b)). -/
def selectFormat (r : Word64) : Instr :=
  match encRows.find? (fun row => row.applies r) with
  | some ⟨_, _, some .t1⟩ => .encT1 (r.extractLsb' 0 6)
  | some ⟨_, _, some .t2⟩ => .encT2 (r.extractLsb' 0 14)
  | some ⟨_, _, some .t4⟩ => .encT4 (r.extractLsb' 0 30)
  | some ⟨_, _, some .t8⟩ => .encT8 (r.extractLsb' 0 62)
  | some ⟨_, _, none⟩ => .encRange r
  | none => .encRange r

/-- Format W1 by lane (R41). -/
def w1 (v : BitVec 6) : List Byte := [0b00#2 ++ v]

/-- Format W2 by lane (R42). -/
def w2 (v : BitVec 14) : List Byte := [0b01#2 ++ v.extractLsb' 8 6, v.extractLsb' 0 8]

/-- Format W4 by lane (R43). -/
def w4 (v : BitVec 30) : List Byte :=
  [0b10#2 ++ v.extractLsb' 24 6, v.extractLsb' 16 8, v.extractLsb' 8 8, v.extractLsb' 0 8]

/-- Format W8 by lane (R44). -/
def w8 (v : BitVec 62) : List Byte :=
  [0b11#2 ++ v.extractLsb' 56 6, v.extractLsb' 48 8, v.extractLsb' 40 8, v.extractLsb' 32 8,
   v.extractLsb' 24 8, v.extractLsb' 16 8, v.extractLsb' 8 8, v.extractLsb' 0 8]

/-- The bytes the table's `encoding` gives a row: of a group a row the item, of a group b row the bytes it produces
(R41 to R44, R54). `ENC.RANGE` has no format and the group c rows "have no bit pattern" (R54): none. -/
def encode : Instr → Option (List Byte)
  | .decT1 v => some (w1 v)
  | .decT2 v => some (w2 v)
  | .decT4 v => some (w4 v)
  | .decT8 v => some (w8 v)
  | .encT1 v => some (w1 v)
  | .encT2 v => some (w2 v)
  | .encT4 v => some (w4 v)
  | .encT8 v => some (w8 v)
  | .encRange _ => none
  | .enc _ => none
  | .dec => none
  | .size _ => none
  | .encodedSize _ => none
  | .fromU8 _ => none
  | .fromU16 _ => none
  | .fromU32 _ => none
  | .tryFromU64 _ => none
  | .tryFromUsize _ _ => none
  | .intoU64 _ => none

/-- The bytes of a word whose bit 0 is the least significant bit of the FIRST byte, `k` bytes of them. -/
def bytesOfWord : Nat → Nat → List Byte
  | 0, _ => []
  | k + 1, w => BitVec.ofNat 8 w :: bytesOfWord k (w / 256)

/-- The eight bytes (the longest encoding, R5 `MAX_SIZE`) that a table word of `nbits` bits stands for: the bits above
`nbits` are 0. -/
def tableBytes (nbits w : Nat) : List Byte := bytesOfWord 8 (w % 2 ^ nbits)

/-- The operation the decoder reads from the word of a table row. A wire item is the only thing this hardware reads
from bytes, so the answer is a group a row; the group b rows match over `enc_value` and the group c rows have no bits
(R54). DESIGN CHOICE (entry 1), safe. -/
def decodeTableWord (nbits w : Nat) : Option Instr :=
  match decode (tableBytes nbits w) with
  | .ok (i, _) => some i
  | .error _ => none

end Sys2Proof
end

