-- ==== Sys2Proof/Machine/State.lean ====
section
/-! DEFINITION. The state: the ports of the two modules as the latest evaluation left them (10_state.md R11, R13), the
reference harness (R19), the script still to be performed and the listing (30_encoding.md R52, 70_reset_and_hazards.md
R139). The block itself stores nothing (R10, R18). -/

namespace Sys2Proof.Machine

/-- The two error kinds (60_exceptions.md R110). -/
inductive ErrKind where
  | range
  | io
  deriving DecidableEq, Repr

/-- The result of one operation, as a script's listing records it (30_encoding.md R52). A failed operation has an error
and no value (R98, U3, U4). -/
inductive Result where
  /-- `ok <bytes>` of an encoder call. -/
  | bytes (bs : List Byte)
  /-- `ok <value> <n>` of a decoder call. -/
  | decoded (value : Word64) (n : Nat)
  /-- `<n>` of `SIZE`, `ESIZE`, `SKIP`. -/
  | length (n : Nat)
  /-- The VarInt of a construction (R63 to R67). -/
  | varint (v : VarInt)
  /-- The 64-bit word of `INTO_U64` (R69). -/
  | word (w : Word64)
  /-- `err Range`, `err Io`. -/
  | err (e : ErrKind)
  deriving DecidableEq, Repr

/-- What `UNTIL_EMPTY` repeats (R52). -/
inductive LoopOp where
  | dec
  | skip
  deriving DecidableEq, Repr

/-- A line of a script (R52): an operation of the table, any row of it (entry 7), or one of the harness's conveniences. A
loop line holds the results of the repetitions performed so far. -/
inductive Line where
  | op (i : Instr)
  | skip
  | untilEmpty (k : LoopOp) (sofar : List Result)
  deriving DecidableEq, Repr

/-- The result of a line: one result, or for `UNTIL_EMPTY` "the list of the results" (R52). -/
inductive LineResult where
  | one (r : Result)
  | many (rs : List Result)
  deriving DecidableEq, Repr

/-- The input ports of `varint_encoder` (R11). -/
structure EncIn where
  valid : Bool
  value : Word64
  room : BitVec 4
  deriving DecidableEq, Repr

/-- The output ports of `varint_encoder` (R11); the alias `enc_data` is computed from the lanes (R14). -/
structure EncOut where
  ok : Bool
  err : BitVec 2
  len : BitVec 4
  lanes : Lanes
  deriving DecidableEq, Repr

/-- The input ports of `varint_decoder` (R13); the alias `dec_data` is computed from the lanes (R14). -/
structure DecIn where
  valid : Bool
  lanes : Lanes
  avail : BitVec 4
  deriving DecidableEq, Repr

/-- The output ports of `varint_decoder` (R13). -/
structure DecOut where
  ok : Bool
  err : BitVec 2
  len : BitVec 4
  value : Word64
  deriving DecidableEq, Repr

/-- The harness's buffer: the bytes that have a value, by strictly rising index. An index that is not listed has no
value (R23 "every byte of `buf` unspecified"; entry 4). -/
abbrev Memory := List Host.Cell

/-- The canonical form: strictly rising indices. (No entry can equal what an unlisted index reads as, which is no
value.) -/
def Memory.wf : Memory → Bool
  | [] => true
  | [_] => true
  | c :: d :: rest => decide (c.1 < d.1) && Memory.wf (d :: rest)

/-- Everything the spec gives the machine and its environment. -/
structure State where
  encIn : EncIn
  encOut : EncOut
  decIn : DecIn
  decOut : DecOut
  cap : Nat
  buf : Memory
  wrPos : Nat
  rdPos : Nat
  script : List Line
  results : List LineResult
  /-- The model's own: numbers the free values of the evaluations (entry 5). -/
  tick : Nat
  deriving DecidableEq, Repr

/-- What stops the machine. Both arise only in harness states that no run from a legal start reaches. -/
inductive Fault where
  /-- Raised by `memRead` (a decoder call, ESIZE, SKIP): a byte below `wr_pos` that nothing has given a value. The spec:
  a model must not read one (R23). Safe: the model stops where it has no value to show. -/
  | unwrittenByte (addr : Nat)
  /-- Raised by `memRead`: an index at or above CAP, which is no byte of `buf[0 .. CAP - 1]` (R19, R25). Safe. -/
  | outsideBuffer (addr : Nat)
  deriving DecidableEq, Repr

/-- Why an operation has no meaning. -/
inductive Refusal where
  /-- Raised by `exec`'s arm of a row without a meaning. Safe. -/
  | notModelled (mnemonic : String)
  /-- Raised by `execEncT2`, `execEncT4`, `execEncT8`, `execEncRange`, `execTryFromUsize`: an operand outside the range of
  its row (R49, R67); no evaluation of the hardware is that operation (entry 12). Safe. -/
  | illFormed
  /-- Raised by `execDecT1`, `execDecT2`, `execDecT4`, `execDecT8`: the unread bytes are not that item, or a beginning of
  it (entry 12). Safe. -/
  | otherItem
  deriving DecidableEq, Repr

/-- Before the first call (R22, R23, R130): the valid inputs, the status and the length outputs are 0; the lanes of the
encoder and `dec_value` are unspecified, so free values (entry 5); the positions are 0 and no byte of the buffer has a
value. The inputs no rule names are 0 (entry 8); `cap` is the open parameter (entry 3); script and listing are empty
(entry 2). -/
def State.reset : State where
  encIn := ⟨false, 0#64, 0#4⟩
  encOut := ⟨false, 0#2, 0#4, Config.freeLanes 0⟩
  decIn := ⟨false, ⟨0#8, 0#8, 0#8, 0#8, 0#8, 0#8, 0#8, 0#8⟩, 0#4⟩
  decOut := ⟨false, 0#2, 0#4, Config.freeValue 0⟩
  cap := Config.cap
  buf := []
  wrPos := 0
  rdPos := 0
  script := []
  results := []
  tick := 1

end Sys2Proof.Machine
end

