-- ==== Sys2Proof/Machine/Operands.lean ====
section
/-! DEFINITION. Operand forms and the arithmetic the block uses (41_encoder.md R87): the lanes and their bus, the
big-endian pseudocode primitives `be_n` and `from_be` (00_scope.md R8), the range check (40_construction.md R63), the
zero-extensions (R64 to R69), the tier selector (R74) and `encoded_size` (42_decoder.md R90). -/

namespace Sys2Proof

/-- The lanes in wire order. -/
def Lanes.toList (l : Lanes) : List Byte := [l.b0, l.b1, l.b2, l.b3, l.b4, l.b5, l.b6, l.b7]

/-- Lane `k` carries byte `k` of the list, and where the list has none, lane `k` of `other`. -/
def Lanes.fill (bs : List Byte) (other : Lanes) : Lanes where
  b0 := bs.getD 0 other.b0
  b1 := bs.getD 1 other.b1
  b2 := bs.getD 2 other.b2
  b3 := bs.getD 3 other.b3
  b4 := bs.getD 4 other.b4
  b5 := bs.getD 5 other.b5
  b6 := bs.getD 6 other.b6
  b7 := bs.getD 7 other.b7

/-- Eight lanes of `0x00`. -/
def Lanes.zero : Lanes := ⟨0#8, 0#8, 0#8, 0#8, 0#8, 0#8, 0#8, 0#8⟩

/-- The 64-bit alias `enc_data`, `dec_data`: lane 0 at the most significant end (R14). -/
def Lanes.bus (l : Lanes) : Word64 := l.b0 ++ l.b1 ++ l.b2 ++ l.b3 ++ l.b4 ++ l.b5 ++ l.b6 ++ l.b7

end Sys2Proof

namespace Sys2Proof.Machine

/-- `be_n(x)`: `n` bytes, most significant first (R8). -/
def be : Nat → Nat → List Byte
  | 0, _ => []
  | n + 1, x => BitVec.ofNat 8 (x >>> (8 * n)) :: be n x

/-- `from_be`: the bytes read as one number, most significant first (R8). -/
def fromBe : List Byte → Nat
  | [] => 0
  | b :: bs => b.toNat * 256 ^ bs.length + fromBe bs

/-- `TRY_FROM_U64`'s check: `if r[63:62] == 2'b00 then VarInt(r[61:0])` (R63). -/
def toVarInt (r : Word64) : Option VarInt :=
  if r.extractLsb' 62 2 = 0#2 then some (r.extractLsb' 0 62) else none

/-- `zext_64` of a VarInt, `{2'b00, x[61:0]}` (R69). -/
def varintWord (x : VarInt) : Word64 := x.setWidth 64

/-- The tier selector, a priority decode on the high bits of the value (R74). -/
def tierOf (v : VarInt) : Tier :=
  if v.extractLsb' 6 56 = 0#56 then .t1
  else if v.extractLsb' 14 48 = 0#48 then .t2
  else if v.extractLsb' 30 32 = 0#32 then .t4
  else .t8

/-- `size(v)`, the length of the selected tier (R73, R74). Its argument is a VarInt, so the defect case of R83 cannot be
written. -/
def size (v : VarInt) : Nat := (tierOf v).len

/-- `(tag(n) << (8n - 2)) | v` with `n` the tier's length, an `8n`-bit integer (R47, R75). -/
def packed (t : Tier) (v : VarInt) : Nat := (t.tag <<< (8 * t.len - 2)) ||| v.toNat

/-- The encoding of a VarInt: `be_n` of the packed integer (R47, R75). -/
def encodeBytes (v : VarInt) : List Byte := be (size v) (packed (tierOf v) v)

/-- `encoded_size(b) = 1 << b[7:6]` (R48, R90). -/
def encodedSize (b : Byte) : Nat := 1 <<< (b.extractLsb' 6 2).toNat

/-- `raw`: the first byte with the tag bits cleared, then the further bytes of the encoding, read big-endian (R46,
R91). -/
def rawValue (bs : List Byte) : Nat :=
  match bs with
  | [] => 0
  | b0 :: rest => fromBe ((b0 &&& 0x3F#8) :: rest)

end Sys2Proof.Machine
end

