-- ==== Sys2Proof/Machine/Flags.lean ====
section
/-! DEFINITION. The status and length outputs of each kind of evaluation: no call, Range, Io, ok (60_exceptions.md R111,
R112; 10_state.md R12, R15, R17). They are recomputed at every evaluation and are not sticky. -/

namespace Sys2Proof.Machine

/-- The numeric code of an error kind on `err` (R112); 0 is no error and 3 is never driven. -/
def ErrKind.code : ErrKind → BitVec 2
  | .range => 1#2
  | .io => 2#2

/-- The error kind a failed call reports (R112). A failed call drives 1 or 2 only. -/
def errOfCode (c : BitVec 2) : ErrKind := if c = 1#2 then .range else .io

/-- No encoder call (`enc_valid = 0`): all status outputs 0, lanes unspecified (R12). -/
def EncOut.idle (free : Lanes) : EncOut := ⟨false, 0#2, 0#4, free⟩

/-- A failed encoder call: `enc_len` is 0 on Range and the wanted length on Io; lanes unspecified (R12, R63, R81). -/
def EncOut.failed (e : ErrKind) (len : Nat) (free : Lanes) : EncOut := ⟨false, e.code, BitVec.ofNat 4 len, free⟩

/-- An ok encoder call: the bytes on the lanes from lane 0, `0x00` on the lanes beyond (R12, R80). -/
def EncOut.done (bs : List Byte) : EncOut := ⟨true, 0#2, BitVec.ofNat 4 bs.length, Lanes.fill bs Lanes.zero⟩

/-- The bytes the sink takes: lanes 0 to `enc_len - 1` (R80, R82). -/
def EncOut.taken (o : EncOut) : List Byte := o.lanes.toList.take o.len.toNat

/-- No decoder call: all status outputs 0, `dec_value` unspecified (R15). -/
def DecOut.idle (free : Word64) : DecOut := ⟨false, 0#2, 0#4, free⟩

/-- A failed decoder call: `dec_len` is 0 with no first byte and the wanted length otherwise; `dec_value` unspecified
(R15, R96, R97, R99). -/
def DecOut.failed (e : ErrKind) (len : Nat) (free : Word64) : DecOut := ⟨false, e.code, BitVec.ofNat 4 len, free⟩

/-- An ok decoder call (R15, R102, R103). -/
def DecOut.done (value : Word64) (len : Nat) : DecOut := ⟨true, 0#2, BitVec.ofNat 4 len, value⟩

end Sys2Proof.Machine
end

