-- ==== Sys2Proof/Machine/Modules.lean ====
section
/-! DEFINITION. The two modules as total functions of their input ports: the summary functions R12 and R15 of
10_state.md, with the priorities of 60_exceptions.md R115 and R116. Their last argument is what the pins carry that the
spec leaves unspecified (93_implementation_defined.md U3, U4). -/

namespace Sys2Proof.Machine

/-- `varint_encoder` (R12, R75): Range before Io before ok. -/
def encEval (i : EncIn) (free : Lanes) : EncOut :=
  if i.valid then
    match toVarInt i.value with
    | none => .failed .range 0 free
    | some v => if i.room.toNat < size v then .failed .io (size v) free else .done (encodeBytes v)
  else .idle free

/-- `varint_decoder` (R15, R91): Io for no first byte, Io for a short read, Range (kept, and never reported: R99, R100),
ok. -/
def decEval (i : DecIn) (free : Word64) : DecOut :=
  if i.valid then
    if i.avail.toNat = 0 then .failed .io 0 free
    else
      let n := encodedSize i.lanes.b0
      if i.avail.toNat < n then .failed .io n free
      else
        let raw := rawValue (i.lanes.toList.take n)
        if Config.bound ≤ raw then .failed .range n free else .done (BitVec.ofNat 64 raw) n
  else .idle free

end Sys2Proof.Machine
end

