-- ==== Sys2Proof/Machine/Ops.lean ====
section
/-! DEFINITION. The named operations of the harness: reading and writing the buffer (20_memory.md R27, R28), presenting a
call to a module and acting on its outputs (10_state.md R20), recording a result (70_reset_and_hazards.md R139). There is
no exception to take and none to return from (60_exceptions.md R117): a failed call is `EncOut.failed` or
`DecOut.failed`, and moves nothing. -/

namespace Sys2Proof.Machine

/-- What a meaning answers. -/
abbrev Answer := Host.Outcome State Fault Refusal

/-- The byte at an index, if it has a value. -/
def Memory.get : Memory → Nat → Option Byte
  | [], _ => none
  | (a, b) :: rest, k => if a = k then some b else Memory.get rest k

/-- Gives the byte at an index a value; the list stays in index order. -/
def Memory.set : Memory → Nat → Byte → Memory
  | [], k, x => [(k, x)]
  | (a, b) :: rest, k, x =>
    if k < a then (k, x) :: (a, b) :: rest
    else if a = k then (k, x) :: rest
    else (a, b) :: Memory.set rest k x

/-- `MemWrite(addr, n, bytes)` with `n` the number of bytes (R28). -/
def memWrite : Memory → Nat → List Byte → Memory
  | m, _, [] => m
  | m, a, b :: bs => memWrite (m.set a b) (a + 1) bs

/-- One byte of the buffer `buf[0 .. cap - 1]`. A buffer has no cell at or above its capacity (`State.wf`), so a byte
that is there has an index below it. -/
def readByte (cap : Nat) (m : Memory) (a : Nat) : Except Fault Byte :=
  match m.get a with
  | some b => .ok b
  | none => .error (if a < cap then .unwrittenByte a else .outsideBuffer a)

/-- `MemRead(addr, n)` (R27). -/
def memRead (cap : Nat) (m : Memory) : Nat → Nat → Except Fault (List Byte)
  | _, 0 => .ok []
  | a, n + 1 =>
    match readByte cap m a with
    | .error f => .error f
    | .ok b =>
      match memRead cap m (a + 1) n with
      | .error f => .error f
      | .ok bs => .ok (b :: bs)

/-- `snk_room = min(8, CAP - wr_pos)` (R20). -/
def sinkRoom (s : State) : Nat := min 8 (s.cap - s.wrPos)

/-- The number of unread bytes of the stream. -/
def unreadCount (s : State) : Nat := s.wrPos - s.rdPos

/-- `src_avail = min(8, wr_pos - rd_pos)` (R20). -/
def sourceAvail (s : State) : Nat := min 8 (unreadCount s)

/-- One evaluation: the input and output ports of both modules take these values. -/
def setPorts (ei : EncIn) (eo : EncOut) (di : DecIn) (d : DecOut) (s : State) : State :=
  { s with encIn := ei, encOut := eo, decIn := di, decOut := d, tick := s.tick + 1 }

/-- The encoder while it is not called: `enc_valid` 0, its other inputs as they were (R131 duty 1; entry 9). -/
def encOff (s : State) : EncIn := { s.encIn with valid := false }

/-- The decoder while it is not called. -/
def decOff (s : State) : DecIn := { s.decIn with valid := false }

/-- An encoder call with given outputs; the decoder is not called. -/
def encPorts (value : Word64) (room : Nat) (out : EncOut) (s : State) : State :=
  setPorts ⟨true, value, BitVec.ofNat 4 room⟩ out (decOff s) (.idle (Config.freeValue s.tick)) s

/-- An encoder call evaluated by the module. -/
def encCall (value : Word64) (room : Nat) (s : State) : State :=
  encPorts value room (encEval ⟨true, value, BitVec.ofNat 4 room⟩ (Config.freeLanes s.tick)) s

/-- A decoder call with given outputs; the encoder is not called. -/
def decPorts (i : DecIn) (out : DecOut) (s : State) : State :=
  setPorts (encOff s) (.idle (Config.freeLanes s.tick)) i out s

/-- A decoder call evaluated by the module. -/
def decCall (i : DecIn) (s : State) : State :=
  decPorts i (decEval i (Config.freeValue s.tick)) s

/-- No call on either module (R22). -/
def noCall (s : State) : State :=
  setPorts (encOff s) (.idle (Config.freeLanes s.tick)) (decOff s) (.idle (Config.freeValue s.tick)) s

/-- The decoder inputs that show `bs` as the real bytes; the other lanes carry anything (R20, U11). -/
def showBytes (bs : List Byte) (s : State) : DecIn :=
  ⟨true, Lanes.fill bs (Config.floatLanes s.tick), BitVec.ofNat 4 bs.length⟩

/-- The harness after an encoder call: on ok it takes the bytes and moves `wr_pos`, otherwise it changes nothing
(R20). -/
def takeEnc (s : State) : State × Result :=
  if s.encOut.ok then
    ({ s with buf := memWrite s.buf s.wrPos s.encOut.taken, wrPos := s.wrPos + s.encOut.len.toNat },
      .bytes s.encOut.taken)
  else (s, .err (errOfCode s.encOut.err))

/-- The harness after a decoder call: on ok it moves `rd_pos`, otherwise it changes nothing (R20). -/
def takeDec (s : State) : State × Result :=
  if s.decOut.ok then
    ({ s with rdPos := s.rdPos + s.decOut.len.toNat }, .decoded s.decOut.value s.decOut.len.toNat)
  else (s, .err (errOfCode s.decOut.err))

/-- The result of a line enters the listing (R52, R139). -/
def record (r : LineResult) (s : State) : State := { s with results := s.results ++ [r] }

/-- An operation that ran: its result is recorded. -/
def finish (p : State × Result) : Answer := .next (record (.one p.2) p.1)

/-- An operation that may meet a byte without a value. -/
def finishOr (p : Except Fault (State × Result)) : Answer :=
  match p with
  | .ok q => finish q
  | .error f => .fault f

/-- The operation is refused when its operand is outside its row's range (entry 12). -/
def whenWf (i : Instr) (a : Answer) : Answer := if i.wf then a else .refused .illFormed

/-- A start state as a test names it (R23): the capacity, the bytes already in the stream, the script. -/
def State.start (cap : Nat) (stream : List Byte) (script : List Line) : State :=
  { State.reset with cap := cap, buf := memWrite [] 0 stream, wrPos := stream.length, script := script }

/-- The state whose next line is the item `i`, whose bytes (`bs`) are the next unread bytes of the stream (entry 2). -/
def loadItem (i : Instr) (bs : List Byte) (s : State) : State :=
  { s with
    buf := memWrite s.buf s.rdPos bs
    wrPos := max s.wrPos (s.rdPos + bs.length)
    cap := max s.cap (s.rdPos + bs.length)
    script := .op i :: s.script }

end Sys2Proof.Machine
end

