-- ==== Sys2Proof/Machine/Construct.lean ====
section
/-! DEFINITION. The constructions of a VarInt and the conversion back (40_construction.md R63 to R69; 30_encoding.md
R53): "each construction is the encoder's range check applied to `enc_value`". -/

namespace Sys2Proof.Machine

/-- The encoder evaluation of a construction: the operand on `enc_value`, `snk_room = 8` (entry 10), nothing written. -/
def constructPorts (r : Word64) (s : State) : State := encCall r 8 s

/-- The result of a checked construction: the VarInt, or Range (R63). -/
def checked (r : Word64) : Result :=
  match toVarInt r with
  | some v => .varint v
  | none => .err .range

/-- `FROM_U8 b` (R64): `VarInt(zext_62(b))`, presented as `zext_64(b)`. -/
def execFromU8 (b : BitVec 8) (s : State) : Answer :=
  finish (constructPorts (b.setWidth 64) s, .varint (b.setWidth 62))

/-- `FROM_U16 h` (R65). -/
def execFromU16 (h : BitVec 16) (s : State) : Answer :=
  finish (constructPorts (h.setWidth 64) s, .varint (h.setWidth 62))

/-- `FROM_U32 w` (R66). -/
def execFromU32 (w : BitVec 32) (s : State) : Answer :=
  finish (constructPorts (w.setWidth 64) s, .varint (w.setWidth 62))

/-- `TRY_FROM_U64 r` (R63). -/
def execTryFromU64 (r : Word64) (s : State) : Answer := finish (constructPorts r s, checked r)

/-- `TRY_FROM_USIZE`: `TRY_FROM_U64` of the zero-extended platform word (R67). -/
def execTryFromUsize (width : Nat) (w : Word64) (s : State) : Answer :=
  whenWf (.tryFromUsize width w) (finish (constructPorts w s, checked w))

/-- `INTO_U64 x` (R69): `zext_64(x)`, "how `dec_value` is driven". The operand reaches the decoder as the item of format
W8, whose value field has its 62 bits (entry 10). -/
def execIntoU64 (x : VarInt) (s : State) : Answer :=
  finish (decCall (showBytes (w8 x) s) s, .word (varintWord x))

end Sys2Proof.Machine
end

