-- ==== Sys2Proof/Machine/Decoder.lean ====
section
/-! DEFINITION. The decoder's operations (42_decoder.md): DEC, the wire formats' rows, ENCODED_SIZE. -/

namespace Sys2Proof.Machine

/-- The first `n` unread bytes of the stream. -/
def nextBytes (n : Nat) (s : State) : Except Fault (List Byte) := memRead s.cap s.buf s.rdPos n

/-- The decoder call of `DEC` at the read position (R20, R91). -/
def decOp (s : State) : Except Fault (State × Result) :=
  match nextBytes (sourceAvail s) s with
  | .error f => .error f
  | .ok real => .ok (takeDec (decCall (showBytes real s) s))

/-- `DEC` (R91). -/
def execDec (s : State) : Answer := finishOr (decOp s)

/-- The outputs of a row of group a, an item of `n` bytes with value `value`, when `avail` bytes are on offer: Io iff
there are fewer than `n` (R92 to R97). -/
def itemOut (n : Nat) (value : Word64) (avail : Nat) (free : Word64) : DecOut :=
  if avail = 0 then .failed .io 0 free
  else if avail < n then .failed .io n free
  else .done value n

/-- The decoder call on the item with bytes `bs`, which must be what the unread bytes are, as far as they reach. -/
def decItem (bs : List Byte) (value : Word64) (s : State) : Answer :=
  match nextBytes (sourceAvail s) s with
  | .error f => .fault f
  | .ok real =>
    if real.take bs.length = bs.take real.length then
      finish (takeDec (decPorts (showBytes real s)
        (itemOut bs.length value real.length (Config.freeValue s.tick)) s))
    else .refused .otherItem

/-- `DEC.T1` (R92): `dec_len <- 1; dec_value <- zext_64(dec_byte[0][5:0])`. -/
def execDecT1 (v : BitVec 6) (s : State) : Answer := decItem (w1 v) (v.setWidth 64) s

/-- `DEC.T2` (R93): `dec_len <- 2; dec_value <- zext_64({dec_byte[0][5:0], dec_byte[1]})`. -/
def execDecT2 (v : BitVec 14) (s : State) : Answer := decItem (w2 v) (v.setWidth 64) s

/-- `DEC.T4` (R94). -/
def execDecT4 (v : BitVec 30) (s : State) : Answer := decItem (w4 v) (v.setWidth 64) s

/-- `DEC.T8` (R95). -/
def execDecT8 (v : BitVec 62) (s : State) : Answer := decItem (w8 v) (v.setWidth 64) s

/-- What a line that reads `dec_len` records: the length, or Io when there was no first byte (R52 `ESIZE`, R90, R96). -/
def readDecLen (s : State) : State × Result :=
  (s, if s.decOut.len = 0#4 then .err .io else .length s.decOut.len.toNat)

/-- The script line `ESIZE`: a decoder evaluation with `src_avail = min(1, wr_pos - rd_pos)`, read `dec_len`, nothing
moved (R52). -/
def esizeOp (s : State) : Except Fault (State × Result) :=
  match nextBytes (min 1 (unreadCount s)) s with
  | .error f => .error f
  | .ok real => .ok (readDecLen (decCall (showBytes real s) s))

/-- `ENCODED_SIZE` (R90): of a given byte, shown on lane 0 with `src_avail = 1` (entry 10); or of the first unread byte
(`ESIZE`). -/
def execEncodedSize (b : Option Byte) (s : State) : Answer :=
  match b with
  | some x => finish (readDecLen (decCall (showBytes [x] s) s))
  | none => finishOr (esizeOp s)

end Sys2Proof.Machine
end

