-- ==== Sys2Proof/Machine/Encoder.lean ====
section
/-! DEFINITION. The encoder's operations (41_encoder.md): ENC, the rows of its format map, SIZE. -/

namespace Sys2Proof.Machine

/-- The encoder call of `ENC r` on the harness (R20, R75): `snk_room` presented, the bytes taken on ok. -/
def encOp (r : Word64) (s : State) : State × Result := takeEnc (encCall r (sinkRoom s) s)

/-- `ENC r` (R75). -/
def execEnc (r : Word64) (s : State) : Answer := finish (encOp r s)

/-- The outputs of a row of the format map: Io when there is less room than its bytes, else its bytes (R76 to R81). -/
def encRowOut (bs : List Byte) (room : Nat) (free : Lanes) : EncOut :=
  if room < bs.length then .failed .io bs.length free else .done bs

/-- The encoder call whose value selects a row of the format map with bytes `bs` (R76 to R79, R20). -/
def encRow (value : Word64) (bs : List Byte) (s : State) : State × Result :=
  takeEnc (encPorts value (sinkRoom s) (encRowOut bs (sinkRoom s) (Config.freeLanes s.tick)) s)

/-- `ENC.T1` (R76): `enc_byte[0] <- {2'b00, v[5:0]}`. -/
def execEncT1 (v : BitVec 6) (s : State) : Answer := finish (encRow (v.setWidth 64) (w1 v) s)

/-- `ENC.T2` (R77): `{2'b01, v[13:8]}, v[7:0]`. -/
def execEncT2 (v : BitVec 14) (s : State) : Answer :=
  whenWf (.encT2 v) (finish (encRow (v.setWidth 64) (w2 v) s))

/-- `ENC.T4` (R78): `{2'b10, v[29:24]}, v[23:16], v[15:8], v[7:0]`. -/
def execEncT4 (v : BitVec 30) (s : State) : Answer :=
  whenWf (.encT4 v) (finish (encRow (v.setWidth 64) (w4 v) s))

/-- `ENC.T8` (R79): `{2'b11, v[61:56]}, v[55:48], ..., v[7:0]`. -/
def execEncT8 (v : BitVec 62) (s : State) : Answer :=
  whenWf (.encT8 v) (finish (encRow (v.setWidth 64) (w8 v) s))

/-- `ENC.RANGE` (R63, R111): Range, `enc_len = 0`, whatever the room. -/
def execEncRange (r : Word64) (s : State) : Answer :=
  whenWf (.encRange r)
    (finish (takeEnc (encPorts r (sinkRoom s) (.failed .range 0 (Config.freeLanes s.tick)) s)))

/-- What a line that reads `enc_len` records: the length, or the call's error when there is none (R52 `SIZE`, R73). -/
def readEncLen (s : State) : State × Result :=
  (s, if s.encOut.len = 0#4 then .err (errOfCode s.encOut.err) else .length s.encOut.len.toNat)

/-- `SIZE r`: "Encoder evaluation with `enc_valid = 1`, `enc_value = r`, `snk_room = 8`; read `enc_len`; nothing written,
nothing moved" (R52, R73). -/
def execSize (r : Word64) (s : State) : Answer := finish (readEncLen (encCall r 8 s))

end Sys2Proof.Machine
end

