-- ==== Sys2Proof/Machine/Dispatch.lean ====
section
/-! DEFINITION. One arm per row of the operation table. -/

namespace Sys2Proof.Machine

def exec (i : Instr) (s : State) : Host.Outcome State Fault Refusal :=
  match i with
  | .decT1 v => Sys2Proof.Machine.execDecT1 v s
  | .decT2 v => Sys2Proof.Machine.execDecT2 v s
  | .decT4 v => Sys2Proof.Machine.execDecT4 v s
  | .decT8 v => Sys2Proof.Machine.execDecT8 v s
  | .encT1 v => Sys2Proof.Machine.execEncT1 v s
  | .encT2 v => Sys2Proof.Machine.execEncT2 v s
  | .encT4 v => Sys2Proof.Machine.execEncT4 v s
  | .encT8 v => Sys2Proof.Machine.execEncT8 v s
  | .encRange r => Sys2Proof.Machine.execEncRange r s
  | .enc r => Sys2Proof.Machine.execEnc r s
  | .dec => Sys2Proof.Machine.execDec s
  | .size r => Sys2Proof.Machine.execSize r s
  | .encodedSize b => Sys2Proof.Machine.execEncodedSize b s
  | .fromU8 b => Sys2Proof.Machine.execFromU8 b s
  | .fromU16 h => Sys2Proof.Machine.execFromU16 h s
  | .fromU32 w => Sys2Proof.Machine.execFromU32 w s
  | .tryFromU64 r => Sys2Proof.Machine.execTryFromU64 r s
  | .tryFromUsize width w => Sys2Proof.Machine.execTryFromUsize width w s
  | .intoU64 x => Sys2Proof.Machine.execIntoU64 x s

end Sys2Proof.Machine
end

