-- ==== Sys2Proof/Machine/Script.lean ====
section
/-! DEFINITION. The harness's own lines, SKIP and UNTIL_EMPTY, and the text of a script line (30_encoding.md R52;
42_decoder.md R103; 70_reset_and_hazards.md R138, R139). -/

namespace Sys2Proof.Machine

/-- `SKIP`: "`ESIZE`; then, if a byte was unread and `wr_pos - rd_pos >= n`, `rd_pos <- rd_pos + n`; otherwise nothing
moves" and the result is Io (R52). -/
def skipOp (s : State) : Except Fault (State × Result) :=
  match esizeOp s with
  | .error f => .error f
  | .ok (t, .length n) =>
    if n ≤ unreadCount s then .ok ({ t with rdPos := t.rdPos + n }, .length n) else .ok (t, .err .io)
  | .ok (t, r) => .ok (t, r)

/-- The line `SKIP`. -/
def runSkip (s : State) : Answer := finishOr (skipOp s)

/-- Whether a result is an error. -/
def Result.isErr : Result → Bool
  | .err _ => true
  | _ => false

/-- One repetition of an `UNTIL_EMPTY` line. -/
def loopBody (k : LoopOp) (s : State) : Except Fault (State × Result) :=
  match k with
  | .dec => decOp s
  | .skip => skipOp s

/-- One step of `UNTIL_EMPTY`: it repeats "while `rd_pos < wr_pos` and its last result was not an error" (R52). A
repetition that leaves bytes unread puts the line back, with the results so far (entry 2). -/
def runLoop (k : LoopOp) (sofar : List Result) (s : State) : Answer :=
  if unreadCount s = 0 then .next (record (.many sofar) (noCall s))
  else
    match loopBody k s with
    | .error f => .fault f
    | .ok (t, r) =>
      if r.isErr || unreadCount t = 0 then .next (record (.many (sofar ++ [r])) t)
      else .next { t with script := .untilEmpty k (sofar ++ [r]) :: t.script }

/-- The next line is taken from the script. -/
def popLine (s : State) : State := { s with script := s.script.tail }

/-- Why a text is no script line. -/
inductive ScriptError where
  /-- Not one of the lines of R52. -/
  | unknownLine
  /-- Not a decimal number, nor a hexadecimal one with `0x`. -/
  | notANumber
  /-- Not "a natural number below 2^64". -/
  | numberTooLarge
  deriving DecidableEq, Repr

/-- The value of a digit; letters of either case (entry 13). -/
def digitValue (c : Char) : Option Nat :=
  if 48 ≤ c.toNat ∧ c.toNat ≤ 57 then some (c.toNat - 48)
  else if 97 ≤ c.toNat ∧ c.toNat ≤ 102 then some (c.toNat - 87)
  else if 65 ≤ c.toNat ∧ c.toNat ≤ 70 then some (c.toNat - 55)
  else none

/-- Digits in a base, read from the most significant, continuing from `acc`. -/
def digitsFrom (base : Nat) : Nat → List Char → Option Nat
  | acc, [] => some acc
  | acc, c :: cs =>
    match digitValue c with
    | some d => if d < base then digitsFrom base (acc * base + d) cs else none
    | none => none

/-- "A number is decimal, or hexadecimal with `0x`, and is a natural number below 2^64" (R52). -/
def parseNumber (cs : List Char) : Except ScriptError Word64 :=
  let n := match cs with
    | [] => none
    | '0' :: 'x' :: [] => none
    | '0' :: 'x' :: ds => digitsFrom 16 0 ds
    | ds => digitsFrom 10 0 ds
  match n with
  | none => .error .notANumber
  | some n => if n < 2 ^ 64 then .ok (BitVec.ofNat 64 n) else .error .numberTooLarge

/-- The words of a text, separated by spaces. -/
def wordsFrom : List Char → List Char → List (List Char)
  | [], [] => []
  | w, [] => [w.reverse]
  | [], ' ' :: cs => wordsFrom [] cs
  | c :: w, ' ' :: cs => (c :: w).reverse :: wordsFrom [] cs
  | w, c :: cs => wordsFrom (c :: w) cs

/-- The line a text stands for (R52). -/
def parseLine (text : List Char) : Except ScriptError Line :=
  match wordsFrom [] text with
  | [['E', 'N', 'C'], n] => (parseNumber n).map (fun r => .op (.enc r))
  | [['D', 'E', 'C']] => .ok (.op .dec)
  | [['S', 'I', 'Z', 'E'], n] => (parseNumber n).map (fun r => .op (.size r))
  | [['E', 'S', 'I', 'Z', 'E']] => .ok (.op (.encodedSize none))
  | [['S', 'K', 'I', 'P']] => .ok .skip
  | [['U', 'N', 'T', 'I', 'L', '_', 'E', 'M', 'P', 'T', 'Y'], ['D', 'E', 'C']] => .ok (.untilEmpty .dec [])
  | [['U', 'N', 'T', 'I', 'L', '_', 'E', 'M', 'P', 'T', 'Y'], ['S', 'K', 'I', 'P']] => .ok (.untilEmpty .skip [])
  | _ => .error .unknownLine

/-- "A script is a list of lines, performed in order" (R52). -/
def parseScript : List (List Char) → Except ScriptError (List Line)
  | [] => .ok []
  | t :: ts =>
    match parseLine t, parseScript ts with
    | .ok l, .ok ls => .ok (l :: ls)
    | .error e, _ => .error e
    | _, .error e => .error e

end Sys2Proof.Machine
end

