-- ==== Sys2Proof/Machine/Step.lean ====
section
/-! DEFINITION. One step: the next line of the script is performed (20_memory.md R36; 30_encoding.md R52, R56), at most one
evaluation of a module (10_state.md R10). With no line left no call is made (R22). -/

namespace Sys2Proof.Machine

/-- A line, already taken from the script. -/
def runLine (l : Line) (s : State) : Host.Outcome State Fault Refusal :=
  match l with
  | .op i => exec i s
  | .skip => runSkip s
  | .untilEmpty k sofar => runLoop k sofar s

/-- One step of the machine. -/
def step (s : State) : Host.Outcome State Fault Refusal :=
  match s.script with
  | [] => .next (noCall s)
  | l :: _ => runLine l (popLine s)

/-- The state whose very next step runs the operation that `decodeTableWord` reads: its bytes are the next unread bytes
of the stream and its line is the next line of the script (entry 2). -/
def State.withFetchWord (s : State) (nbits w : Nat) : State :=
  match decodeTableWord nbits w with
  | some i => loadItem i (tableBytes nbits w) s
  | none => s

end Sys2Proof.Machine
end

