-- ==== Sys2Proof/Safety.lean ====
section
/-! DEFINITION. What claims speak of: a legal harness (10_state.md R19, R23), ports that are functions of the inputs of
their own evaluation (R10, R17), what an operation leaves alone, and the lines of a script of 30_encoding.md R52. -/

namespace Sys2Proof.Machine

/-- The harness's own invariants: `0 <= rd_pos <= wr_pos <= CAP`, every byte of the stream `buf[0 .. wr_pos - 1]` has a
value, no cell lies at or above CAP, and the buffer is in its canonical form (R19, R23). -/
structure HarnessOk (s : State) : Prop where
  canonical : s.buf.wf = true
  bounded : ∀ a b, s.buf.get a = some b → a < s.cap
  streamWritten : ∀ a, a < s.wrPos → (s.buf.get a).isSome = true
  rdLeWr : s.rdPos ≤ s.wrPos
  wrLeCap : s.wrPos ≤ s.cap

/-- The output ports are what the modules' functions give for the input ports, up to the unspecified pins (R10, R17:
"recomputed at every evaluation from that evaluation's inputs alone"). -/
structure PortsOk (s : State) : Prop where
  enc : ∃ free, s.encOut = encEval s.encIn free
  dec : ∃ free, s.decOut = decEval s.decIn free

/-- The invariant of the machine. -/
structure Inv (s : State) : Prop where
  harness : HarnessOk s
  ports : PortsOk s

/-- The first unread bytes of the stream are `bs`, as many as a window can show, or all there are (R20). -/
def Window (s : State) (bs : List Byte) : Prop :=
  bs.length = sourceAvail s ∧ ∀ k, k < bs.length → s.buf.get (s.rdPos + k) = bs[k]?

/-- The stream and its positions, the capacity and the script are as before. -/
structure HarnessSame (s t : State) : Prop where
  cap : t.cap = s.cap
  buf : t.buf = s.buf
  wrPos : t.wrPos = s.wrPos
  rdPos : t.rdPos = s.rdPos
  script : t.script = s.script

/-- Only the read position moved, by `n`. -/
structure HarnessRead (n : Nat) (s t : State) : Prop where
  cap : t.cap = s.cap
  buf : t.buf = s.buf
  wrPos : t.wrPos = s.wrPos
  rdPos : t.rdPos = s.rdPos + n
  script : t.script = s.script

/-- The bytes `bs` were written at the write position, which moved past them; every other byte reads as before. -/
structure HarnessWrote (bs : List Byte) (s t : State) : Prop where
  cap : t.cap = s.cap
  stored : ∀ k, k < bs.length → t.buf.get (s.wrPos + k) = bs[k]?
  others : ∀ a, a < s.wrPos ∨ s.wrPos + bs.length ≤ a → t.buf.get a = s.buf.get a
  wrPos : t.wrPos = s.wrPos + bs.length
  rdPos : t.rdPos = s.rdPos
  script : t.script = s.script

/-- One result entered the listing. -/
def Logged (r : Result) (s t : State) : Prop := t.results = s.results ++ [.one r]

/-- The encoder was not called: valid 0, status and length 0 (R12, R22, R131); its other inputs as before (entry 9). -/
structure EncoderOff (s t : State) : Prop where
  ins : t.encIn = { s.encIn with valid := false }
  ok : t.encOut.ok = false
  err : t.encOut.err = 0#2
  len : t.encOut.len = 0#4

/-- The decoder was not called (R15, R22, R131; entry 9). -/
structure DecoderOff (s t : State) : Prop where
  ins : t.decIn = { s.decIn with valid := false }
  ok : t.decOut.ok = false
  err : t.decOut.err = 0#2
  len : t.decOut.len = 0#4

/-- The inputs of an encoder call (R20). -/
def EncShown (value : Word64) (room : Nat) (t : State) : Prop := t.encIn = ⟨true, value, BitVec.ofNat 4 room⟩

/-- The inputs of a decoder call: the real bytes on lanes 0 to `src_avail - 1` (R20); the other lanes are free. -/
structure DecShown (bs : List Byte) (t : State) : Prop where
  valid : t.decIn.valid = true
  avail : t.decIn.avail.toNat = bs.length
  lanes : t.decIn.lanes.toList.take bs.length = bs

/-- The encoder's status and length outputs. -/
structure EncStatus (ok : Bool) (err : BitVec 2) (len : Nat) (o : EncOut) : Prop where
  ok : o.ok = ok
  err : o.err = err
  len : o.len.toNat = len

/-- The decoder's status and length outputs. -/
structure DecStatus (ok : Bool) (err : BitVec 2) (len : Nat) (o : DecOut) : Prop where
  ok : o.ok = ok
  err : o.err = err
  len : o.len.toNat = len

/-- The operations that may hand bytes to the sink: ENC and the rows of its format map (R25, R28). -/
def writesStream : Instr → Bool
  | .enc _ => true
  | .encT1 _ => true
  | .encT2 _ => true
  | .encT4 _ => true
  | .encT8 _ => true
  | .encRange _ => false
  | .dec => false
  | .decT1 _ => false
  | .decT2 _ => false
  | .decT4 _ => false
  | .decT8 _ => false
  | .size _ => false
  | .encodedSize _ => false
  | .fromU8 _ => false
  | .fromU16 _ => false
  | .fromU32 _ => false
  | .tryFromU64 _ => false
  | .tryFromUsize _ _ => false
  | .intoU64 _ => false

/-- The operations that may consume bytes of the source: DEC and the rows of the wire formats (R20, R27). -/
def consumesStream : Instr → Bool
  | .dec => true
  | .decT1 _ => true
  | .decT2 _ => true
  | .decT4 _ => true
  | .decT8 _ => true
  | .enc _ => false
  | .encT1 _ => false
  | .encT2 _ => false
  | .encT4 _ => false
  | .encT8 _ => false
  | .encRange _ => false
  | .size _ => false
  | .encodedSize _ => false
  | .fromU8 _ => false
  | .fromU16 _ => false
  | .fromU32 _ => false
  | .tryFromU64 _ => false
  | .tryFromUsize _ _ => false
  | .intoU64 _ => false

/-- The line that an `UNTIL_EMPTY` repeats (R52). -/
def LoopOp.line : LoopOp → Line
  | .dec => .op .dec
  | .skip => .skip

/-- A line of a script as R52 lists them. -/
def Line.inScript : Line → Bool
  | .op (.enc _) => true
  | .op .dec => true
  | .op (.size _) => true
  | .op (.encodedSize none) => true
  | .op _ => false
  | .skip => true
  | .untilEmpty _ _ => true

/-- A bound on the steps that are left: one for each line, one for each byte a loop may still read (R138). -/
def State.fuel (s : State) : Nat := s.script.length + (s.cap - s.rdPos)

end Sys2Proof.Machine
end

