-- ==== Sys2Proof/Certificates/Slice0/Obligations.lean ====
section
/-! DEFINITION. The statements for the provers. Wherever a statement says `EncoderOff` or `DecoderOff`, the clause that
the other inputs of the module that is not called keep their values is the model's choice, entry 9. -/

open Sys2Proof Sys2Proof.Machine

/-! ### The encoder as a function of its ports -/

/-- 41_encoder.md R73: the four half-open ranges, `enc_len` whatever the room, Range above, monotone. -/
def Obligations.SizeFollowsTheFourRanges : Prop :=
  (∀ v : VarInt,
    (v.toNat < 2 ^ 6 → size v = 1) ∧
    (2 ^ 6 ≤ v.toNat → v.toNat < 2 ^ 14 → size v = 2) ∧
    (2 ^ 14 ≤ v.toNat → v.toNat < 2 ^ 30 → size v = 4) ∧
    (2 ^ 30 ≤ v.toNat → size v = 8)) ∧
  (∀ (v : VarInt) (room : BitVec 4) (free : Lanes),
    (encEval ⟨true, v.setWidth 64, room⟩ free).len.toNat = size v) ∧
  (∀ (r : Word64) (room : BitVec 4) (free : Lanes), 2 ^ 62 ≤ r.toNat →
    (encEval ⟨true, r, room⟩ free).err = 1#2 ∧ (encEval ⟨true, r, room⟩ free).len = 0#4) ∧
  (∀ u v : VarInt, u.toNat ≤ v.toNat → size u ≤ size v)

/-- 41_encoder.md R74: the selector tests high bits only, its tag is the logarithm of its length, and its length is the
least of the four that holds the value. -/
def Obligations.SelectorPicksTheLeastTier : Prop :=
  ∀ v : VarInt,
    (size v = 1 ↔ v.extractLsb' 6 56 = 0#56) ∧
    (v.extractLsb' 6 56 ≠ 0#56 → (size v = 2 ↔ v.extractLsb' 14 48 = 0#48)) ∧
    (v.extractLsb' 14 48 ≠ 0#48 → (size v = 4 ↔ v.extractLsb' 30 32 = 0#32)) ∧
    (v.extractLsb' 30 32 ≠ 0#32 → size v = 8) ∧
    2 ^ (tierOf v).tag = size v ∧
    v.toNat < 2 ^ (8 * size v - 2) ∧
    (∀ n, n = 1 ∨ n = 2 ∨ n = 4 ∨ n = 8 → v.toNat < 2 ^ (8 * n - 2) → size v ≤ n)

/-- 60_exceptions.md R115: Range exactly at 2^62 and above, whatever the room; else Io exactly when the room is too
small; at most one error. -/
def Obligations.EncoderReportsRangeBeforeIo : Prop :=
  ∀ (r : Word64) (room : BitVec 4) (free : Lanes),
    ((encEval ⟨true, r, room⟩ free).err = 1#2 ↔ 2 ^ 62 ≤ r.toNat) ∧
    ((encEval ⟨true, r, room⟩ free).err = 2#2 ↔
      r.toNat < 2 ^ 62 ∧ room.toNat < size (r.extractLsb' 0 62)) ∧
    ((encEval ⟨true, r, room⟩ free).ok = true ↔
      r.toNat < 2 ^ 62 ∧ size (r.extractLsb' 0 62) ≤ room.toNat)

/-- 41_encoder.md R81: the sink error, with the length that was wanted. -/
def Obligations.SinkErrorTellsTheWantedLength : Prop :=
  ∀ (v : VarInt) (room : BitVec 4) (free : Lanes),
    (room.toNat < size v →
      EncStatus false 2#2 (size v) (encEval ⟨true, v.setWidth 64, room⟩ free)) ∧
    (size v ≤ room.toNat →
      EncStatus true 0#2 (size v) (encEval ⟨true, v.setWidth 64, room⟩ free)) ∧
    (8 ≤ room.toNat → (encEval ⟨true, v.setWidth 64, room⟩ free).err = 0#2) ∧
    (room = 0#4 → (encEval ⟨true, v.setWidth 64, room⟩ free).err = 2#2)

/-- 41_encoder.md R84: on an ok call the length is the value's size, the first byte's tag announces it, and the value
would not fit a shorter tier. -/
def Obligations.EncodingsAreCanonical : Prop :=
  ∀ (i : EncIn) (free : Lanes), i.valid = true → (encEval i free).ok = true →
    ∃ v : VarInt, i.value = v.setWidth 64 ∧
      (encEval i free).len.toNat = size v ∧
      (encEval i free).taken.length = size v ∧
      2 ^ ((encEval i free).lanes.b0.toNat / 64) = size v ∧
      (size v = 1 ∨ ∀ n, n = 1 ∨ n = 2 ∨ n = 4 ∨ n = 8 → n < size v → 2 ^ (8 * n - 2) ≤ v.toNat)

/-- 41_encoder.md R76 to R80, the lanes of each tier bit by bit, `0x00` beyond the encoding. -/
def Obligations.EncoderDrivesTheLanesOfEachTier : Prop :=
  ∀ (r : Word64) (room : BitVec 4) (free : Lanes),
    (r.toNat < 2 ^ 6 → 1 ≤ room.toNat →
      encEval ⟨true, r, room⟩ free
        = ⟨true, 0#2, 1#4, ⟨0b00#2 ++ r.extractLsb' 0 6, 0#8, 0#8, 0#8, 0#8, 0#8, 0#8, 0#8⟩⟩) ∧
    (2 ^ 6 ≤ r.toNat → r.toNat < 2 ^ 14 → 2 ≤ room.toNat →
      encEval ⟨true, r, room⟩ free
        = ⟨true, 0#2, 2#4, ⟨0b01#2 ++ r.extractLsb' 8 6, r.extractLsb' 0 8, 0#8, 0#8, 0#8, 0#8, 0#8, 0#8⟩⟩) ∧
    (2 ^ 14 ≤ r.toNat → r.toNat < 2 ^ 30 → 4 ≤ room.toNat →
      encEval ⟨true, r, room⟩ free
        = ⟨true, 0#2, 4#4, ⟨0b10#2 ++ r.extractLsb' 24 6, r.extractLsb' 16 8, r.extractLsb' 8 8,
            r.extractLsb' 0 8, 0#8, 0#8, 0#8, 0#8⟩⟩) ∧
    (2 ^ 30 ≤ r.toNat → r.toNat < 2 ^ 62 → 8 ≤ room.toNat →
      encEval ⟨true, r, room⟩ free
        = ⟨true, 0#2, 8#4, ⟨0b11#2 ++ r.extractLsb' 56 6, r.extractLsb' 48 8, r.extractLsb' 40 8,
            r.extractLsb' 32 8, r.extractLsb' 24 8, r.extractLsb' 16 8, r.extractLsb' 8 8, r.extractLsb' 0 8⟩⟩)

/-- 41_encoder.md R85: different values give different encodings, and none is a prefix of another. -/
def Obligations.EncodingsArePrefixFree : Prop :=
  ∀ (u v : VarInt) (rest rest' : List Byte), encodeBytes u ++ rest = encodeBytes v ++ rest' → u = v ∧ rest = rest'

/-- 41_encoder.md R86: encodings compare as their values do. -/
def Obligations.EncodingsKeepTheOrder : Prop :=
  ∀ u v : VarInt, u.toNat < v.toNat →
    size u ≤ size v ∧ List.Lex (fun a b : Byte => a.toNat < b.toNat) (encodeBytes u) (encodeBytes v)

/-! ### The decoder as a function of its ports -/

/-- 42_decoder.md R90: `encoded_size` by the four ranges of the first byte, on `dec_len` of every call with at least one
byte, whatever the other lanes and the count. -/
def Obligations.EncodedSizeOfEveryFirstByte : Prop :=
  (∀ b : Byte,
    (b.toNat < 0x40 → encodedSize b = 1) ∧
    (0x40 ≤ b.toNat → b.toNat < 0x80 → encodedSize b = 2) ∧
    (0x80 ≤ b.toNat → b.toNat < 0xC0 → encodedSize b = 4) ∧
    (0xC0 ≤ b.toNat → encodedSize b = 8)) ∧
  (∀ (l : Lanes) (avail : BitVec 4) (free : Word64), 1 ≤ avail.toNat →
    (decEval ⟨true, l, avail⟩ free).len.toNat = encodedSize l.b0)

/-- 42_decoder.md R100: the reconstructed number has at most `8n - 2` bits, so no window and no count makes the range
re-check fire. -/
def Obligations.DecoderNeverReportsRange : Prop :=
  (∀ l : Lanes, rawValue (l.toList.take (encodedSize l.b0)) < 2 ^ (8 * encodedSize l.b0 - 2)) ∧
  (∀ (i : DecIn) (free : Word64), (decEval i free).err ≠ 1#2)

/-- 42_decoder.md R96 and R97: no first byte, and a short read. -/
def Obligations.DecoderReportsShortReads : Prop :=
  ∀ (l : Lanes) (avail : BitVec 4) (free : Word64),
    (avail.toNat = 0 → DecStatus false 2#2 0 (decEval ⟨true, l, avail⟩ free)) ∧
    (1 ≤ avail.toNat → avail.toNat < encodedSize l.b0 →
      DecStatus false 2#2 (encodedSize l.b0) (decEval ⟨true, l, avail⟩ free)) ∧
    (encodedSize l.b0 ≤ avail.toNat →
      DecStatus true 0#2 (encodedSize l.b0) (decEval ⟨true, l, avail⟩ free))

/-- 42_decoder.md R92 to R95: the value of each tier, lane by lane. -/
def Obligations.DecoderAssemblesEachTier : Prop :=
  ∀ (l : Lanes) (avail : BitVec 4) (free : Word64),
    (l.b0.toNat < 0x40 → 1 ≤ avail.toNat →
      decEval ⟨true, l, avail⟩ free = ⟨true, 0#2, 1#4, (l.b0.extractLsb' 0 6).setWidth 64⟩) ∧
    (0x40 ≤ l.b0.toNat → l.b0.toNat < 0x80 → 2 ≤ avail.toNat →
      decEval ⟨true, l, avail⟩ free = ⟨true, 0#2, 2#4, (l.b0.extractLsb' 0 6 ++ l.b1).setWidth 64⟩) ∧
    (0x80 ≤ l.b0.toNat → l.b0.toNat < 0xC0 → 4 ≤ avail.toNat →
      decEval ⟨true, l, avail⟩ free
        = ⟨true, 0#2, 4#4, (l.b0.extractLsb' 0 6 ++ l.b1 ++ l.b2 ++ l.b3).setWidth 64⟩) ∧
    (0xC0 ≤ l.b0.toNat → 8 ≤ avail.toNat →
      decEval ⟨true, l, avail⟩ free
        = ⟨true, 0#2, 8#4,
            (l.b0.extractLsb' 0 6 ++ l.b1 ++ l.b2 ++ l.b3 ++ l.b4 ++ l.b5 ++ l.b6 ++ l.b7).setWidth 64⟩)

/-- 10_state.md R21 for the decoder: lanes at or above `src_avail`, and lanes at or above `dec_len`, do not matter, and
beyond enough bytes the count does not matter. -/
def Obligations.DecoderReadsItsOwnLanesOnly : Prop :=
  ∀ (l m : Lanes) (a b : BitVec 4) (free : Word64),
    (l.toList.take a.toNat = m.toList.take a.toNat → decEval ⟨true, l, a⟩ free = decEval ⟨true, m, a⟩ free) ∧
    (l.toList.take (encodedSize l.b0) = m.toList.take (encodedSize l.b0) →
      encodedSize l.b0 ≤ a.toNat → encodedSize l.b0 ≤ b.toNat →
      decEval ⟨true, l, a⟩ free = decEval ⟨true, m, b⟩ free) ∧
    (l.b0 = m.b0 → 1 ≤ a.toNat → a.toNat < encodedSize l.b0 →
      decEval ⟨true, l, a⟩ free = decEval ⟨true, m, a⟩ free)

/-- 42_decoder.md R102: the value output has two zero bits on top and fits its tier. -/
def Obligations.DecodedValueFitsItsTier : Prop :=
  ∀ (i : DecIn) (free : Word64), (decEval i free).ok = true →
    (decEval i free).value.extractLsb' 62 2 = 0#2 ∧
    (decEval i free).value.toNat < 2 ^ (8 * (decEval i free).len.toNat - 2)

/-- 42_decoder.md R101: every format that can hold a value decodes to it, so decoding is not injective. -/
def Obligations.NonMinimalEncodingsDecode : Prop :=
  ∀ (v : VarInt) (o : Lanes) (free : Word64),
    (v.toNat < 2 ^ 6 →
      decEval ⟨true, Lanes.fill (w1 (v.setWidth 6)) o, 1#4⟩ free = ⟨true, 0#2, 1#4, v.setWidth 64⟩) ∧
    (v.toNat < 2 ^ 14 →
      decEval ⟨true, Lanes.fill (w2 (v.setWidth 14)) o, 2#4⟩ free = ⟨true, 0#2, 2#4, v.setWidth 64⟩) ∧
    (v.toNat < 2 ^ 30 →
      decEval ⟨true, Lanes.fill (w4 (v.setWidth 30)) o, 4#4⟩ free = ⟨true, 0#2, 4#4, v.setWidth 64⟩) ∧
    decEval ⟨true, Lanes.fill (w8 v) o, 8#4⟩ free = ⟨true, 0#2, 8#4, v.setWidth 64⟩

/-! ### Both modules -/

/-- 10_state.md R17: the status outputs come from the inputs of the evaluation alone (not from what the unspecified pins
carry), and their invariants, for both modules. -/
def Obligations.StatusOutputsAgree : Prop :=
  (∀ (i : EncIn) (free free' : Lanes),
    ((encEval i free).ok = (encEval i free').ok ∧ (encEval i free).err = (encEval i free').err) ∧
    (i.valid = false → (encEval i free).ok = false ∧ (encEval i free).err = 0#2) ∧
    (i.valid = true → ((encEval i free).ok = true ↔ (encEval i free).err = 0#2)) ∧
    (encEval i free).err ≠ 3#2) ∧
  (∀ (i : DecIn) (free free' : Word64),
    ((decEval i free).ok = (decEval i free').ok ∧ (decEval i free).err = (decEval i free').err) ∧
    (i.valid = false → (decEval i free).ok = false ∧ (decEval i free).err = 0#2) ∧
    (i.valid = true → ((decEval i free).ok = true ↔ (decEval i free).err = 0#2)) ∧
    (decEval i free).err ≠ 3#2)

/-- 10_state.md R24: counts of 8 to 15 behave alike, and the harness presents 8 at most. -/
def Obligations.CountsAbove8ActAs8 : Prop :=
  (∀ (r : Word64) (a : BitVec 4) (free : Lanes), 8 ≤ a.toNat →
    encEval ⟨true, r, a⟩ free = encEval ⟨true, r, 8#4⟩ free) ∧
  (∀ (l : Lanes) (a : BitVec 4) (free : Word64), 8 ≤ a.toNat →
    decEval ⟨true, l, a⟩ free = decEval ⟨true, l, 8#4⟩ free) ∧
  (∀ s : State, sinkRoom s ≤ 8 ∧ sourceAvail s ≤ 8)

/-- 10_state.md R14: lane `k` is `data[63 - 8k : 56 - 8k]`, the bus reads as the big-endian number of the eight lanes,
and the tag is `data[63:62]`. -/
def Obligations.BusPutsLaneZeroOnTop : Prop :=
  ∀ l : Lanes,
    (∀ k, k < 8 → some (l.bus.extractLsb' (56 - 8 * k) 8) = l.toList[k]?) ∧
    l.bus.toNat = fromBe l.toList ∧
    l.bus.extractLsb' 62 2 = l.b0.extractLsb' 6 2

/-- 42_decoder.md R105 in ports: the lanes of an ok encoder call, shown to the decoder, give back value and length. -/
def Obligations.RoundTripThroughThePorts : Prop :=
  ∀ (e : EncIn) (d : DecIn) (free : Lanes) (free' : Word64),
    e.valid = true → (encEval e free).ok = true →
    d.valid = true → (encEval e free).len.toNat ≤ d.avail.toNat →
    d.lanes.toList.take (encEval e free).len.toNat = (encEval e free).lanes.toList.take (encEval e free).len.toNat →
    (decEval d free').ok = true ∧ (decEval d free').value = e.value ∧ (decEval d free').len = (encEval e free).len

/-- 42_decoder.md R106: encoding a decoded value never takes more bytes, and gives the same bytes back exactly when the
item was canonical. -/
def Obligations.DecodeThenEncodeIsCanonical : Prop :=
  ∀ (d : DecIn) (free : Word64), (decEval d free).ok = true →
    ∃ v : VarInt, (decEval d free).value = v.setWidth 64 ∧
      size v ≤ (decEval d free).len.toNat ∧
      (encodeBytes v = d.lanes.toList.take (decEval d free).len.toNat ↔ (decEval d free).len.toNat = size v)

/-- 42_decoder.md R107: the first byte of an encoding tells its size. -/
def Obligations.TagExtractionAgreesWithTheEncoder : Prop :=
  ∀ v : VarInt, ∃ b rest, encodeBytes v = b :: rest ∧ encodedSize b = size v

/-! ### The formats and the format map -/

/-- 30_encoding.md R40 to R44, R46: decoding the bytes of an item gives the item, with every value, whatever follows. -/
def Obligations.DecodeOfEncodeIsTheItem : Prop :=
  ∀ rest : List Byte,
    (∀ v : BitVec 6, ∃ bs, encode (.decT1 v) = some bs ∧ decode (bs ++ rest) = .ok (.decT1 v, rest)) ∧
    (∀ v : BitVec 14, ∃ bs, encode (.decT2 v) = some bs ∧ decode (bs ++ rest) = .ok (.decT2 v, rest)) ∧
    (∀ v : BitVec 30, ∃ bs, encode (.decT4 v) = some bs ∧ decode (bs ++ rest) = .ok (.decT4 v, rest)) ∧
    (∀ v : BitVec 62, ∃ bs, encode (.decT8 v) = some bs ∧ decode (bs ++ rest) = .ok (.decT8 v, rest))

/-- 30_encoding.md R50: a byte string fails to decode only when it is empty or shorter than its first byte demands, and
an item that is read has exactly the bytes that were read. -/
def Obligations.DecodeFailsOnlyOnShortInput : Prop :=
  decode [] = .error .noFirstByte ∧
  ∀ (b : Byte) (rest : List Byte),
    (rest.length + 1 < encodedSize b → decode (b :: rest) = .error (.shortRead (encodedSize b))) ∧
    (encodedSize b ≤ rest.length + 1 →
      ∃ i bs tl, decode (b :: rest) = .ok (i, tl) ∧ encode i = some bs ∧ bs ++ tl = b :: rest ∧
        bs.length = encodedSize b)

/-- 30_encoding.md R49: the table's conditions on the raw value, tried in its order, and the row they give. -/
def Obligations.FormatMapFollowsTheTable : Prop :=
  ∀ r : Word64,
    (r.extractLsb' 62 2 ≠ 0#2 → selectFormat r = .encRange r) ∧
    (r.extractLsb' 6 58 = 0#58 → selectFormat r = .encT1 (r.extractLsb' 0 6)) ∧
    (r.extractLsb' 6 58 ≠ 0#58 → r.extractLsb' 14 50 = 0#50 → selectFormat r = .encT2 (r.extractLsb' 0 14)) ∧
    (r.extractLsb' 14 50 ≠ 0#50 → r.extractLsb' 30 34 = 0#34 → selectFormat r = .encT4 (r.extractLsb' 0 30)) ∧
    (r.extractLsb' 30 34 ≠ 0#34 → r.extractLsb' 62 2 = 0#2 → selectFormat r = .encT8 (r.extractLsb' 0 62)) ∧
    (selectFormat r).wf = true

/-- 30_encoding.md R41 to R44: a few words, written out from the formats. (How a word's number is laid out, the first byte
lowest and zero bytes after the word, is the model's choice, entry 1. The last word rests on the zero bytes: the single
byte C0 with nothing after it is a short read, R97.) -/
def Obligations.WrittenOutWordsDecode : Prop :=
  decodeTableWord 8 0x07 = some (.decT1 7#6) ∧
  decodeTableWord 16 0x2C41 = some (.decT2 300#14) ∧
  decodeTableWord 32 0x7D3E7F9D = some (.decT4 494878333#30) ∧
  decodeTableWord 64 0x8CE814FF5E7C19C2 = some (.decT8 151288809941952652#62) ∧
  decodeTableWord 8 0xC0 = some (.decT8 0#62)

/-! ### The encoder's operations on the harness -/

/-- 41_encoder.md R75 and 10_state.md R20, an ok call: the value's bytes are written at `wr_pos`, which moves past them;
nothing else of the harness changes and the decoder is not called. -/
def Obligations.EncWritesTheEncoding : Prop :=
  ∀ (s : State) (v : VarInt), size v ≤ s.cap - s.wrPos →
    ∃ t, exec (.enc (v.setWidth 64)) s = .next t ∧
      EncShown (v.setWidth 64) (min 8 (s.cap - s.wrPos)) t ∧
      EncStatus true 0#2 (size v) t.encOut ∧
      t.encOut.lanes.toList.take (size v) = encodeBytes v ∧
      HarnessWrote (encodeBytes v) s t ∧ DecoderOff s t ∧ Logged (.bytes (encodeBytes v)) s t

/-- 10_state.md R20, 41_encoder.md R82, a failed call: Range or Io, and nothing of the harness changes. -/
def Obligations.FailedEncChangesNothing : Prop :=
  (∀ (s : State) (v : VarInt), s.cap - s.wrPos < size v →
    ∃ t, exec (.enc (v.setWidth 64)) s = .next t ∧
      EncShown (v.setWidth 64) (min 8 (s.cap - s.wrPos)) t ∧ EncStatus false 2#2 (size v) t.encOut ∧
      HarnessSame s t ∧ DecoderOff s t ∧ Logged (.err .io) s t) ∧
  (∀ (s : State) (r : Word64), 2 ^ 62 ≤ r.toNat →
    ∃ t, exec (.enc r) s = .next t ∧ EncShown r (min 8 (s.cap - s.wrPos)) t ∧
      EncStatus false 1#2 0 t.encOut ∧
      HarnessSame s t ∧ DecoderOff s t ∧ Logged (.err .range) s t)

/-- 41_encoder.md R76 to R79: each row of the format map, with room: its lanes and what it writes. -/
def Obligations.EncRowsWriteTheirFormats : Prop :=
  ∀ s : State,
    (∀ v : BitVec 6, 1 ≤ s.cap - s.wrPos →
      ∃ t, exec (.encT1 v) s = .next t ∧ EncShown (v.setWidth 64) (min 8 (s.cap - s.wrPos)) t ∧
        EncStatus true 0#2 1 t.encOut ∧
        t.encOut.lanes = ⟨0b00#2 ++ v, 0#8, 0#8, 0#8, 0#8, 0#8, 0#8, 0#8⟩ ∧
        HarnessWrote [0b00#2 ++ v] s t ∧ DecoderOff s t ∧ Logged (.bytes [0b00#2 ++ v]) s t) ∧
    (∀ v : BitVec 14, 2 ^ 6 ≤ v.toNat → 2 ≤ s.cap - s.wrPos →
      ∃ t, exec (.encT2 v) s = .next t ∧ EncShown (v.setWidth 64) (min 8 (s.cap - s.wrPos)) t ∧
        EncStatus true 0#2 2 t.encOut ∧
        t.encOut.lanes = ⟨0b01#2 ++ v.extractLsb' 8 6, v.extractLsb' 0 8, 0#8, 0#8, 0#8, 0#8, 0#8, 0#8⟩ ∧
        HarnessWrote (w2 v) s t ∧ DecoderOff s t ∧ Logged (.bytes (w2 v)) s t) ∧
    (∀ v : BitVec 30, 2 ^ 14 ≤ v.toNat → 4 ≤ s.cap - s.wrPos →
      ∃ t, exec (.encT4 v) s = .next t ∧ EncShown (v.setWidth 64) (min 8 (s.cap - s.wrPos)) t ∧
        EncStatus true 0#2 4 t.encOut ∧
        t.encOut.lanes = ⟨0b10#2 ++ v.extractLsb' 24 6, v.extractLsb' 16 8, v.extractLsb' 8 8,
          v.extractLsb' 0 8, 0#8, 0#8, 0#8, 0#8⟩ ∧
        HarnessWrote (w4 v) s t ∧ DecoderOff s t ∧ Logged (.bytes (w4 v)) s t) ∧
    (∀ v : BitVec 62, 2 ^ 30 ≤ v.toNat → 8 ≤ s.cap - s.wrPos →
      ∃ t, exec (.encT8 v) s = .next t ∧ EncShown (v.setWidth 64) (min 8 (s.cap - s.wrPos)) t ∧
        EncStatus true 0#2 8 t.encOut ∧
        t.encOut.lanes = ⟨0b11#2 ++ v.extractLsb' 56 6, v.extractLsb' 48 8, v.extractLsb' 40 8,
          v.extractLsb' 32 8, v.extractLsb' 24 8, v.extractLsb' 16 8, v.extractLsb' 8 8, v.extractLsb' 0 8⟩ ∧
        HarnessWrote (w8 v) s t ∧ DecoderOff s t ∧ Logged (.bytes (w8 v)) s t)

/-- 41_encoder.md R76 to R79, the Io half: a row with less room than its bytes reports Io and the length wanted, and
changes nothing. -/
def Obligations.EncRowsWithoutRoomReportIo : Prop :=
  ∀ s : State,
    (∀ v : BitVec 6, s.cap - s.wrPos < 1 →
      ∃ t, exec (.encT1 v) s = .next t ∧ EncShown (v.setWidth 64) (min 8 (s.cap - s.wrPos)) t ∧
        EncStatus false 2#2 1 t.encOut ∧ HarnessSame s t ∧
        DecoderOff s t ∧ Logged (.err .io) s t) ∧
    (∀ v : BitVec 14, 2 ^ 6 ≤ v.toNat → s.cap - s.wrPos < 2 →
      ∃ t, exec (.encT2 v) s = .next t ∧ EncShown (v.setWidth 64) (min 8 (s.cap - s.wrPos)) t ∧
        EncStatus false 2#2 2 t.encOut ∧ HarnessSame s t ∧
        DecoderOff s t ∧ Logged (.err .io) s t) ∧
    (∀ v : BitVec 30, 2 ^ 14 ≤ v.toNat → s.cap - s.wrPos < 4 →
      ∃ t, exec (.encT4 v) s = .next t ∧ EncShown (v.setWidth 64) (min 8 (s.cap - s.wrPos)) t ∧
        EncStatus false 2#2 4 t.encOut ∧ HarnessSame s t ∧
        DecoderOff s t ∧ Logged (.err .io) s t) ∧
    (∀ v : BitVec 62, 2 ^ 30 ≤ v.toNat → s.cap - s.wrPos < 8 →
      ∃ t, exec (.encT8 v) s = .next t ∧ EncShown (v.setWidth 64) (min 8 (s.cap - s.wrPos)) t ∧
        EncStatus false 2#2 8 t.encOut ∧ HarnessSame s t ∧
        DecoderOff s t ∧ Logged (.err .io) s t)

/-- 40_construction.md R63, 60_exceptions.md R111: the row ENC.RANGE reports Range with `enc_len = 0`. -/
def Obligations.EncRangeRowReportsRange : Prop :=
  ∀ (s : State) (r : Word64), 2 ^ 62 ≤ r.toNat →
    ∃ t, exec (.encRange r) s = .next t ∧ EncShown r (min 8 (s.cap - s.wrPos)) t ∧
      EncStatus false 1#2 0 t.encOut ∧ HarnessSame s t ∧ DecoderOff s t ∧ Logged (.err .range) s t

/-- 30_encoding.md R54: ENC is the row its value selects: the two meanings agree in every state. -/
def Obligations.EncIsTheRowItSelects : Prop :=
  ∀ (r : Word64) (s : State), exec (.enc r) s = exec (selectFormat r) s

/-- 30_encoding.md R49, 41_encoder.md R74 ("no other tier may be used for a given value") and 40_construction.md R67: a
row with an operand outside its range is refused by name (the model's choice, entry 12). -/
def Obligations.OperandsOutsideTheirRowAreRefused : Prop :=
  ∀ s : State,
    (∀ v : BitVec 14, v.toNat < 2 ^ 6 → exec (.encT2 v) s = .refused .illFormed) ∧
    (∀ v : BitVec 30, v.toNat < 2 ^ 14 → exec (.encT4 v) s = .refused .illFormed) ∧
    (∀ v : BitVec 62, v.toNat < 2 ^ 30 → exec (.encT8 v) s = .refused .illFormed) ∧
    (∀ r : Word64, r.toNat < 2 ^ 62 → exec (.encRange r) s = .refused .illFormed) ∧
    (∀ (width : Nat) (w : Word64), 64 < width ∨ 2 ^ width ≤ w.toNat →
      exec (.tryFromUsize width w) s = .refused .illFormed)

/-- 30_encoding.md R52, 41_encoder.md R73, the line SIZE: the size, or Range; nothing written, nothing moved. -/
def Obligations.SizeLineReadsTheLength : Prop :=
  (∀ (s : State) (v : VarInt),
    ∃ t, exec (.size (v.setWidth 64)) s = .next t ∧ EncShown (v.setWidth 64) 8 t ∧
      t.encOut.len.toNat = size v ∧ HarnessSame s t ∧ DecoderOff s t ∧ Logged (.length (size v)) s t) ∧
  (∀ (s : State) (r : Word64), 2 ^ 62 ≤ r.toNat →
    ∃ t, exec (.size r) s = .next t ∧ EncShown r 8 t ∧ EncStatus false 1#2 0 t.encOut ∧
      HarnessSame s t ∧ DecoderOff s t ∧ Logged (.err .range) s t)

/-! ### The decoder's operations on the harness -/

/-- 42_decoder.md R91 and 10_state.md R20, an ok call: value and byte count from the unread bytes, `rd_pos` moves by the
count, nothing else of the harness changes and the encoder is not called. -/
def Obligations.DecReadsTheNextItem : Prop :=
  ∀ (s : State) (b : Byte) (rest : List Byte), Window s (b :: rest) → encodedSize b ≤ rest.length + 1 →
    ∃ t, exec .dec s = .next t ∧
      DecShown (b :: rest) t ∧
      DecStatus true 0#2 (encodedSize b) t.decOut ∧
      t.decOut.value.toNat
        = fromBe (b :: rest.take (encodedSize b - 1)) % 2 ^ (8 * encodedSize b - 2) ∧
      HarnessRead (encodedSize b) s t ∧ EncoderOff s t ∧
      Logged (.decoded t.decOut.value (encodedSize b)) s t

/-- 42_decoder.md R96, R97 and 10_state.md R20, a failed call: Io, the length wanted (0 with no byte), and nothing of the
harness changes. -/
def Obligations.FailedDecChangesNothing : Prop :=
  (∀ s : State, s.wrPos ≤ s.rdPos →
    ∃ t, exec .dec s = .next t ∧ DecShown [] t ∧ DecStatus false 2#2 0 t.decOut ∧
      HarnessSame s t ∧ EncoderOff s t ∧ Logged (.err .io) s t) ∧
  (∀ (s : State) (b : Byte) (rest : List Byte), Window s (b :: rest) → rest.length + 1 < encodedSize b →
    ∃ t, exec .dec s = .next t ∧ DecShown (b :: rest) t ∧
      DecStatus false 2#2 (encodedSize b) t.decOut ∧ HarnessSame s t ∧
      EncoderOff s t ∧ Logged (.err .io) s t)

/-- 42_decoder.md R92 to R95: each row of the wire formats, where its item is what is unread: the value field, its
length. -/
def Obligations.DecRowsReadTheirItems : Prop :=
  ∀ (s : State) (rest : List Byte),
    (∀ v : BitVec 6, Window s (w1 v ++ rest) →
      ∃ t, exec (.decT1 v) s = .next t ∧ DecShown (w1 v ++ rest) t ∧
        t.decOut = ⟨true, 0#2, 1#4, v.setWidth 64⟩ ∧
        HarnessRead 1 s t ∧ EncoderOff s t ∧ Logged (.decoded (v.setWidth 64) 1) s t) ∧
    (∀ v : BitVec 14, Window s (w2 v ++ rest) →
      ∃ t, exec (.decT2 v) s = .next t ∧ DecShown (w2 v ++ rest) t ∧
        t.decOut = ⟨true, 0#2, 2#4, v.setWidth 64⟩ ∧
        HarnessRead 2 s t ∧ EncoderOff s t ∧ Logged (.decoded (v.setWidth 64) 2) s t) ∧
    (∀ v : BitVec 30, Window s (w4 v ++ rest) →
      ∃ t, exec (.decT4 v) s = .next t ∧ DecShown (w4 v ++ rest) t ∧
        t.decOut = ⟨true, 0#2, 4#4, v.setWidth 64⟩ ∧
        HarnessRead 4 s t ∧ EncoderOff s t ∧ Logged (.decoded (v.setWidth 64) 4) s t) ∧
    (∀ v : BitVec 62, Window s (w8 v ++ rest) →
      ∃ t, exec (.decT8 v) s = .next t ∧ DecShown (w8 v ++ rest) t ∧
        t.decOut = ⟨true, 0#2, 8#4, v.setWidth 64⟩ ∧
        HarnessRead 8 s t ∧ EncoderOff s t ∧ Logged (.decoded (v.setWidth 64) 8) s t)

/-- 42_decoder.md R93 to R97, the Io half: where the unread bytes are a beginning of the item, the row reports Io and
changes nothing. -/
def Obligations.DecRowsOnATruncatedItemReportIo : Prop :=
  ∀ (s : State) (i : Instr) (bs cut : List Byte),
    ((∃ v, i = .decT1 v) ∨ (∃ v, i = .decT2 v) ∨ (∃ v, i = .decT4 v) ∨ (∃ v, i = .decT8 v)) →
    encode i = some bs → cut <+: bs → cut.length < bs.length → Window s cut →
    ∃ t, exec i s = .next t ∧ DecShown cut t ∧ DecStatus false 2#2 (if cut = [] then 0 else bs.length) t.decOut ∧
      HarnessSame s t ∧ EncoderOff s t ∧ Logged (.err .io) s t

/-- A row of the wire formats where something else is unread is refused by name (the model's choice, entry 12). -/
def Obligations.DecRowsRefuseAnotherItem : Prop :=
  ∀ (s : State) (i : Instr) (bs real : List Byte),
    ((∃ v, i = .decT1 v) ∨ (∃ v, i = .decT2 v) ∨ (∃ v, i = .decT4 v) ∨ (∃ v, i = .decT8 v)) →
    encode i = some bs → Window s real → ¬ bs <+: real → ¬ real <+: bs →
    exec i s = .refused .otherItem

/-- 30_encoding.md R54, 42_decoder.md R91: DEC is the row of the item that the unread bytes decode to: the two meanings
agree in every state. -/
def Obligations.DecIsTheRowOfTheUnreadItem : Prop :=
  ∀ (s : State) (bs rest : List Byte) (i : Instr), Window s bs → decode bs = .ok (i, rest) →
    exec .dec s = exec i s

/-- 42_decoder.md R90 and 30_encoding.md R52: ENCODED_SIZE of a given byte, ESIZE of the first unread byte, and Io where
there is none; nothing moves. -/
def Obligations.EncodedSizeReadsTheTag : Prop :=
  (∀ (s : State) (b : Byte),
    ∃ t, exec (.encodedSize (some b)) s = .next t ∧ t.decIn.valid = true ∧ t.decIn.lanes.b0 = b ∧
      t.decOut.len.toNat = encodedSize b ∧
      HarnessSame s t ∧ EncoderOff s t ∧ Logged (.length (encodedSize b)) s t) ∧
  (∀ (s : State) (b : Byte), s.rdPos < s.wrPos → s.buf.get s.rdPos = some b →
    ∃ t, exec (.encodedSize none) s = .next t ∧ DecShown [b] t ∧
      t.decOut.len.toNat = encodedSize b ∧
      HarnessSame s t ∧ EncoderOff s t ∧ Logged (.length (encodedSize b)) s t) ∧
  (∀ s : State, s.wrPos ≤ s.rdPos →
    ∃ t, exec (.encodedSize none) s = .next t ∧ DecShown [] t ∧ DecStatus false 2#2 0 t.decOut ∧
      HarnessSame s t ∧ EncoderOff s t ∧ Logged (.err .io) s t)

/-! ### The constructions -/

/-- 40_construction.md R64, R65, R66: a construction from a narrow word is the word's value, never an error: the encoder is
shown the zero-extended operand and does not report Range (whatever room it is shown, which is entry 10). -/
def Obligations.NarrowConstructionsAlwaysSucceed : Prop :=
  ∀ s : State,
    (∀ b : BitVec 8, ∃ t v, exec (.fromU8 b) s = .next t ∧ v.toNat = b.toNat ∧ t.encIn.value.toNat = b.toNat ∧
      t.encIn.valid = true ∧ t.encOut.err ≠ 1#2 ∧ HarnessSame s t ∧ DecoderOff s t ∧ Logged (.varint v) s t) ∧
    (∀ h : BitVec 16, ∃ t v, exec (.fromU16 h) s = .next t ∧ v.toNat = h.toNat ∧ t.encIn.value.toNat = h.toNat ∧
      t.encIn.valid = true ∧ t.encOut.err ≠ 1#2 ∧ HarnessSame s t ∧ DecoderOff s t ∧ Logged (.varint v) s t) ∧
    (∀ w : BitVec 32, ∃ t v, exec (.fromU32 w) s = .next t ∧ v.toNat = w.toNat ∧ t.encIn.value.toNat = w.toNat ∧
      t.encIn.valid = true ∧ t.encOut.err ≠ 1#2 ∧ HarnessSame s t ∧ DecoderOff s t ∧ Logged (.varint v) s t)

/-- 40_construction.md R63, R68: below 2^62 the value itself, from there on Range, and never a truncated value. -/
def Obligations.TryFromU64NeverTruncates : Prop :=
  (∀ (s : State) (r : Word64), r.toNat < 2 ^ 62 →
    ∃ t v, exec (.tryFromU64 r) s = .next t ∧ v.toNat = r.toNat ∧ t.encIn.value = r ∧ t.encOut.err ≠ 1#2 ∧
      HarnessSame s t ∧ DecoderOff s t ∧ Logged (.varint v) s t) ∧
  (∀ (s : State) (r : Word64), 2 ^ 62 ≤ r.toNat →
    ∃ t, exec (.tryFromU64 r) s = .next t ∧ t.encIn.value = r ∧ EncStatus false 1#2 0 t.encOut ∧
      HarnessSame s t ∧ DecoderOff s t ∧ Logged (.err .range) s t)

/-- 40_construction.md R67: TRY_FROM_USIZE of a platform word is TRY_FROM_U64 of it; a word of 62 bits or less always
passes. (That the width is an operand is the model's choice, entry 11; that the decoder's other inputs keep their values,
entry 9.) -/
def Obligations.TryFromUsizeIsTryFromU64 : Prop :=
  ∀ (s : State) (width : Nat) (w : Word64), width ≤ 64 → w.toNat < 2 ^ width →
    exec (.tryFromUsize width w) s = exec (.tryFromU64 w) s ∧
    (∃ t, exec (.tryFromUsize width w) s = .next t ∧
      (t.encOut.err = 1#2 ↔ 2 ^ 62 ≤ w.toNat) ∧
      (width ≤ 62 → ∃ v, v.toNat = w.toNat ∧ Logged (.varint v) s t) ∧ HarnessSame s t ∧ DecoderOff s t)

/-- 40_construction.md R69: the conversion back is lossless and has two zero bits on top, as `dec_value` has. (That the
operand reaches the decoder as an item of format W8 is the model's choice, entry 10, and nothing here names it; that the
encoder's other inputs keep their values is the model's choice, entry 9.) -/
def Obligations.IntoU64IsLossless : Prop :=
  (∀ (s : State) (x : VarInt),
    ∃ t w, exec (.intoU64 x) s = .next t ∧ w.toNat = x.toNat ∧ t.decOut.value = w ∧ t.decOut.ok = true ∧
      w.extractLsb' 62 2 = 0#2 ∧ HarnessSame s t ∧ EncoderOff s t ∧ Logged (.word w) s t) ∧
  (∀ x : VarInt, toVarInt (varintWord x) = some x) ∧
  (∀ r : Word64, r.toNat < 2 ^ 62 → ∃ x, toVarInt r = some x ∧ varintWord x = r)

/-! ### The script and the harness -/

/-- 20_memory.md R36: a step takes the next line off the script and performs it; a line of the operation table is `exec`
of its operation (that a step is one line, entry 2). -/
def Obligations.StepRunsTheNextLine : Prop :=
  (∀ (s : State) (i : Instr) (rest : List Line), s.script = .op i :: rest →
    step s = exec i { s with script := rest }) ∧
  (∀ (s : State) (rest : List Line), s.script = .skip :: rest → step s = runSkip { s with script := rest }) ∧
  (∀ (s : State) (k : LoopOp) (sofar : List Result) (rest : List Line), s.script = .untilEmpty k sofar :: rest →
    step s = runLoop k sofar { s with script := rest })

/-- 30_encoding.md R48, 42_decoder.md R91: when the next line is DEC and the unread bytes decode to an item, the step is
`exec` of that item's row, the line taken off. -/
def Obligations.StepRunsTheDecodedItem : Prop :=
  ∀ (s : State) (bs after : List Byte) (i : Instr) (rest : List Line),
    s.script = .op .dec :: rest → Window s bs → decode bs = .ok (i, after) →
    i.wf = true ∧ step s = exec i { s with script := rest }

/-- 10_state.md R22: with no line left no call is made: both modules idle, all status and length outputs 0. (That there
is such a step is the model's choice, entry 2; that the other inputs of both modules keep their values, entry 9.) -/
def Obligations.NoLineMeansNoCall : Prop :=
  ∀ s : State, s.script = [] →
    ∃ t, step s = .next t ∧ EncoderOff s t ∧ DecoderOff s t ∧ HarnessSame s t ∧ t.results = s.results

/-- 30_encoding.md R52, 42_decoder.md R103, the line SKIP: it steps over an item by its length, or reports Io and moves
nothing. (That a step is one line is the model's choice, entry 2; that the encoder's other inputs keep their values, entry
9.) -/
def Obligations.SkipStepsOverAnItem : Prop :=
  (∀ (s : State) (b : Byte) (rest : List Line), s.script = .skip :: rest →
    s.buf.get s.rdPos = some b → encodedSize b ≤ s.wrPos - s.rdPos →
    ∃ t, step s = .next t ∧ HarnessRead (encodedSize b) { s with script := rest } t ∧ EncoderOff s t ∧
      Logged (.length (encodedSize b)) s t) ∧
  (∀ (s : State) (b : Byte) (rest : List Line), s.script = .skip :: rest →
    s.rdPos < s.wrPos → s.buf.get s.rdPos = some b → s.wrPos - s.rdPos < encodedSize b →
    ∃ t, step s = .next t ∧ HarnessSame { s with script := rest } t ∧ EncoderOff s t ∧ Logged (.err .io) s t) ∧
  (∀ (s : State) (rest : List Line), s.script = .skip :: rest → s.wrPos ≤ s.rdPos →
    ∃ t, step s = .next t ∧ HarnessSame { s with script := rest } t ∧ EncoderOff s t ∧ Logged (.err .io) s t)

/-- 30_encoding.md R52, UNTIL_EMPTY. Nothing unread: the line ends with the results it has. Otherwise one repetition is
performed, in the state `u` and with the result `r` that the named line itself gives there: Io exactly when fewer bytes
are unread than the first of them demands, and nothing moves; else `rd_pos` moves by the item's length, and `r` is that
length (SKIP) or the value of the bytes read and their count (DEC). After an error or the last byte the list is recorded,
with `r` at its end; else the line stays, with `r` at the end of what it holds. (That a step is one repetition is the
model's choice, entry 2.) -/
def Obligations.UntilEmptyRepeatsItsLine : Prop :=
  (∀ (s : State) (k : LoopOp) (sofar : List Result) (rest : List Line), s.script = .untilEmpty k sofar :: rest →
    s.wrPos ≤ s.rdPos →
    ∃ t, step s = .next t ∧ HarnessSame { s with script := rest } t ∧ t.results = s.results ++ [.many sofar]) ∧
  (∀ (s : State) (k : LoopOp) (sofar : List Result) (rest : List Line), Inv s →
    s.script = .untilEmpty k sofar :: rest → s.rdPos < s.wrPos →
    ∃ b u r, s.buf.get s.rdPos = some b ∧
      step { s with script := k.line :: rest } = .next u ∧ Logged r s u ∧
      u.cap = s.cap ∧ u.buf = s.buf ∧ u.wrPos = s.wrPos ∧ u.script = rest ∧
      (s.wrPos - s.rdPos < encodedSize b → r = .err .io ∧ u.rdPos = s.rdPos) ∧
      (encodedSize b ≤ s.wrPos - s.rdPos → u.rdPos = s.rdPos + encodedSize b ∧
        (k = .skip → r = .length (encodedSize b)) ∧
        (k = .dec → ∃ bs w, bs.length = encodedSize b ∧
          (∀ j, j < bs.length → s.buf.get (s.rdPos + j) = bs[j]?) ∧
          r = .decoded w (encodedSize b) ∧ w.toNat = fromBe bs % 2 ^ (8 * encodedSize b - 2))) ∧
      (r = .err .io ∨ u.wrPos = u.rdPos →
        step s = .next { u with results := s.results ++ [.many (sofar ++ [r])] }) ∧
      (r ≠ .err .io → u.rdPos < u.wrPos →
        step s = .next { u with script := .untilEmpty k (sofar ++ [r]) :: rest, results := s.results }))

/-- 20_memory.md R27, R28: a read of what was written gives it back, and a read elsewhere is not disturbed. -/
def Obligations.ReadAfterWrite : Prop :=
  ∀ (cap : Nat) (m : Memory) (a : Nat) (bs : List Byte),
    memRead cap (memWrite m a bs) a bs.length = .ok bs ∧
    (∀ c n, c + n ≤ a ∨ a + bs.length ≤ c → memRead cap (memWrite m a bs) c n = memRead cap m c n)

/-- The canonical form of the buffer (entry 4): two buffers that read alike are equal, and writes keep the form. -/
def Obligations.BuffersThatReadAlikeAreEqual : Prop :=
  ∀ m n : Memory, m.wf = true → n.wf = true → (∀ a, m.get a = n.get a) →
    m = n ∧ ∀ a bs, (memWrite m a bs).wf = true

/-- 20_memory.md R38 with 42_decoder.md R105: what ENC wrote is what DEC is shown next, and it decodes to the value. -/
def Obligations.DecReadsBackWhatEncWrote : Prop :=
  ∀ (s : State) (v : VarInt), s.rdPos = s.wrPos → size v ≤ s.cap - s.wrPos →
    ∃ t u, exec (.enc (v.setWidth 64)) s = .next t ∧ exec .dec t = .next u ∧
      Logged (.decoded (v.setWidth 64) (size v)) t u ∧ u.rdPos = u.wrPos ∧ u.wrPos = s.wrPos + size v

/-- 10_state.md R20, 20_memory.md R32: an operation whose result is an error leaves the stream and its positions. -/
def Obligations.FailedOperationsChangeNothing : Prop :=
  ∀ (i : Instr) (s t : State) (e : ErrKind), exec i s = .next t → Logged (.err e) s t → HarnessSame s t

/-- 20_memory.md R25, R36 and 10_state.md R16: the stream only grows, the positions only advance, and only encoder calls
write and only decoder calls consume. -/
def Obligations.TheStreamIsAppendOnly : Prop :=
  ∀ (i : Instr) (s t : State), exec i s = .next t →
    t.cap = s.cap ∧ t.script = s.script ∧ s.wrPos ≤ t.wrPos ∧ s.rdPos ≤ t.rdPos ∧
    (∀ a, a < s.wrPos → t.buf.get a = s.buf.get a) ∧
    (writesStream i = false → t.buf = s.buf ∧ t.wrPos = s.wrPos) ∧
    (consumesStream i = false → t.rdPos = s.rdPos) ∧
    (∃ r, Logged r s t)

/-! ### Invariants -/

/-- 10_state.md R22, R23, 70_reset_and_hazards.md R130: before the first call the status and length outputs are 0, the
positions are 0 and no byte of the buffer has a value. -/
def Obligations.ResetMakesNoCall : Prop :=
  State.reset.encIn.valid = false ∧ State.reset.decIn.valid = false ∧
  EncStatus false 0#2 0 State.reset.encOut ∧ DecStatus false 0#2 0 State.reset.decOut ∧
  State.reset.wrPos = 0 ∧ State.reset.rdPos = 0 ∧ (∀ a, State.reset.buf.get a = none)

/-- 10_state.md R23: every start state a test may name is a legal harness with consistent ports, the reset state among
them. -/
def Obligations.StartStatesAreLegal : Prop :=
  Inv State.reset ∧
  ∀ (cap : Nat) (stream : List Byte) (script : List Line), stream.length ≤ cap → Inv (State.start cap stream script)

/-- 10_state.md R10, R17, R19: every step keeps the harness legal and the outputs functions of the inputs. -/
def Obligations.StepKeepsTheInvariant : Prop :=
  ∀ s t : State, Inv s → step s = .next t → Inv t

/-- 10_state.md R23, 20_memory.md R27: in a legal harness no step reads a byte without a value. -/
def Obligations.LegalHarnessNeverFaults : Prop :=
  ∀ (s : State) (f : Fault), Inv s → step s ≠ .fault f

/-- 70_reset_and_hazards.md R138: in a legal harness every line of R52 is performed: the machine cannot be stuck. -/
def Obligations.ScriptLinesAlwaysRun : Prop :=
  ∀ (s : State) (l : Line) (rest : List Line), Inv s → s.script = l :: rest → l.inScript = true →
    ∃ t, step s = .next t ∧ t.fuel < s.fuel

/-- 70_reset_and_hazards.md R138, R139: a script of lines of R52 always ends, within a bound, with one result a line. (The
number of steps rests on the model's choice of what a step is, entry 2.) -/
def Obligations.EveryScriptEnds : Prop :=
  ∀ s : State, Inv s → (∀ l ∈ s.script, l.inScript = true) →
    ∃ k t, k ≤ s.fuel ∧ Host.Core.run Sys2Proof.core k s = .next t ∧ t.script = [] ∧
      t.results.length = s.results.length + s.script.length
end

