-- ==== Sys2Proof/Laws/Arith.lean ====
section
/-! SUPPORT. The operand arithmetic in natural numbers: concatenation, `be_n` and `from_be`, the range check, the tier
selector, and the bytes of the four formats. -/

namespace Sys2Proof

/-- Masking with a run of ones that starts at bit `k` keeps the bits from `k` up. -/
theorem nat_and_shifted_ones (x k n : Nat) : x &&& ((2 ^ n - 1) <<< k) = ((x / 2 ^ k) % 2 ^ n) * 2 ^ k := by
  rw [← Nat.shiftRight_eq_div_pow, ← Nat.and_two_pow_sub_one_eq_mod, ← Nat.shiftLeft_eq]
  apply Nat.eq_of_testBit_eq
  intro i
  by_cases h : k ≤ i <;> simp [Nat.testBit_shiftLeft, Nat.testBit_shiftRight, h, Bool.and_comm]

/-- Concatenation as arithmetic. -/
theorem toNat_append_add {m n : Nat} (a : BitVec m) (b : BitVec n) :
    (a ++ b).toNat = a.toNat * 2 ^ n + b.toNat := by
  rw [BitVec.toNat_append, ← Nat.shiftLeft_add_eq_or_of_lt b.isLt, Nat.shiftLeft_eq]

/-- A slice as arithmetic. -/
theorem toNat_slice {n : Nat} (x : BitVec n) (lo len : Nat) :
    (x.extractLsb' lo len).toNat = x.toNat / 2 ^ lo % 2 ^ len := by
  simp [BitVec.extractLsb'_toNat, Nat.shiftRight_eq_div_pow]

namespace Machine

@[simp] theorem be_length (n x : Nat) : (be n x).length = n := by
  induction n with
  | zero => rfl
  | succ n ih => simp [be, ih]

theorem fromBe_lt (bs : List Byte) : fromBe bs < 256 ^ bs.length := by
  induction bs with
  | nil => simp [fromBe]
  | cons b bs ih =>
    have hb := b.isLt
    have : b.toNat * 256 ^ bs.length ≤ 255 * 256 ^ bs.length := Nat.mul_le_mul_right _ (by omega)
    simp only [fromBe, List.length_cons, Nat.pow_succ]
    omega

/-- `from_be` is the inverse of `be_n` (R8). -/
theorem fromBe_be (n x : Nat) : fromBe (be n x) = x % 256 ^ n := by
  induction n with
  | zero => simp [be, fromBe, Nat.mod_one]
  | succ n ih =>
    have h8 : 2 ^ (8 * n) = 256 ^ n := by rw [Nat.pow_mul]
    simp only [be, fromBe, be_length, ih, BitVec.toNat_ofNat, Nat.shiftRight_eq_div_pow, h8]
    have h1 : x % 256 ^ (n + 1) = x % 256 ^ n + 256 ^ n * (x / 256 ^ n % 2 ^ 8) := Nat.mod_mul
    rw [h1, Nat.mul_comm (256 ^ n), Nat.add_comm]

/-- `be_n` is the inverse of `from_be` (R8). -/
theorem be_fromBe (bs : List Byte) : be bs.length (fromBe bs) = bs := by
  have key : ∀ (bs : List Byte) (c : Nat), be bs.length (c * 256 ^ bs.length + fromBe bs) = bs := by
    intro bs
    induction bs with
    | nil => intro c; rfl
    | cons b bs ih =>
      intro c
      have h8 : 2 ^ (8 * bs.length) = 256 ^ bs.length := by rw [Nat.pow_mul]
      have hlt := fromBe_lt bs
      have e : c * 256 ^ (bs.length + 1) + (b.toNat * 256 ^ bs.length + fromBe bs)
          = (c * 256 + b.toNat) * 256 ^ bs.length + fromBe bs := by ring
      simp only [List.length_cons, be, fromBe, e, ih, List.cons.injEq, and_true]
      rw [Nat.shiftRight_eq_div_pow, h8, Nat.mul_comm, Nat.mul_add_div (by positivity),
        Nat.div_eq_of_lt hlt]
      apply BitVec.eq_of_toNat_eq
      have := b.isLt
      simp only [BitVec.toNat_ofNat]
      omega
  simpa using key bs 0

/-- The range check in numbers (R63). -/
theorem toVarInt_of_lt {r : Word64} (h : r.toNat < 2 ^ 62) : toVarInt r = some (r.extractLsb' 0 62) := by
  have : r.extractLsb' 62 2 = 0#2 := by
    apply BitVec.eq_of_toNat_eq
    rw [toNat_slice]
    simp
    omega
  simp [toVarInt, this]

/-- A raw value of 2^62 or more is refused, never truncated (R61, R63, R68). -/
theorem toVarInt_of_ge {r : Word64} (h : 2 ^ 62 ≤ r.toNat) : toVarInt r = none := by
  have : ¬ r.extractLsb' 62 2 = 0#2 := by
    intro e
    have e := congrArg BitVec.toNat e
    rw [toNat_slice] at e
    have := r.isLt
    simp at e
    omega
  simp [toVarInt, this]

theorem toNat_low62 {r : Word64} (h : r.toNat < 2 ^ 62) : (r.extractLsb' 0 62).toNat = r.toNat := by
  rw [toNat_slice]
  omega

@[simp] theorem varintWord_toNat (v : VarInt) : (varintWord v).toNat = v.toNat := by
  have := v.isLt
  simp only [varintWord, BitVec.toNat_setWidth]
  omega

/-- `TRY_FROM_U64 (INTO_U64 x) = x` (R69). -/
@[simp] theorem toVarInt_varintWord (v : VarInt) : toVarInt (varintWord v) = some v := by
  have hv := v.isLt
  rw [toVarInt_of_lt (by simpa using hv)]
  congr 1
  apply BitVec.eq_of_toNat_eq
  rw [toNat_low62 (by simpa using hv), varintWord_toNat]

/-- A word in range is the word of its VarInt. -/
theorem eq_varintWord {r : Word64} (h : r.toNat < 2 ^ 62) : r = varintWord (r.extractLsb' 0 62) := by
  apply BitVec.eq_of_toNat_eq
  rw [varintWord_toNat, toNat_low62 h]

theorem slice_eq_zero (v : VarInt) (lo len : Nat) (h : lo + len = 62) :
    (v.extractLsb' lo len = BitVec.ofNat len 0) ↔ v.toNat < 2 ^ lo := by
  rw [← BitVec.toNat_inj, toNat_slice]
  have hlt : v.toNat / 2 ^ lo < 2 ^ len := by
    apply Nat.div_lt_of_lt_mul
    rw [← Nat.pow_add, h]
    exact v.isLt
  rw [Nat.mod_eq_of_lt hlt]
  simp

/-- The selector in numbers: the four half-open ranges (R49, R73, R74). -/
theorem tierOf_eq (v : VarInt) :
    tierOf v = if v.toNat < 2 ^ 6 then .t1 else if v.toNat < 2 ^ 14 then .t2
      else if v.toNat < 2 ^ 30 then .t4 else .t8 := by
  unfold tierOf
  simp only [slice_eq_zero v 6 56 rfl, slice_eq_zero v 14 48 rfl, slice_eq_zero v 30 32 rfl]

theorem tierOf_t1 {v : VarInt} (h : v.toNat < 2 ^ 6) : tierOf v = .t1 := by
  rw [tierOf_eq, if_pos h]

theorem tierOf_t2 {v : VarInt} (h : 2 ^ 6 ≤ v.toNat) (h' : v.toNat < 2 ^ 14) : tierOf v = .t2 := by
  rw [tierOf_eq, if_neg (by omega), if_pos h']

theorem tierOf_t4 {v : VarInt} (h : 2 ^ 14 ≤ v.toNat) (h' : v.toNat < 2 ^ 30) : tierOf v = .t4 := by
  rw [tierOf_eq, if_neg (by omega), if_neg (by omega), if_pos h']

theorem tierOf_t8 {v : VarInt} (h : 2 ^ 30 ≤ v.toNat) : tierOf v = .t8 := by
  rw [tierOf_eq, if_neg (by omega), if_neg (by omega), if_neg (by omega)]

/-- A value fits the value field of its tier (R47). -/
theorem lt_of_tierOf (v : VarInt) : v.toNat < 2 ^ (8 * size v - 2) := by
  have := v.isLt
  unfold size
  rw [tierOf_eq]
  split_ifs <;> simp_all [Tier.len]

theorem size_cases (v : VarInt) : size v = 1 ∨ size v = 2 ∨ size v = 4 ∨ size v = 8 := by
  unfold size
  cases tierOf v <;> simp [Tier.len]

/-- The OR lands on zero bits, so it is a sum (R47, R87). -/
theorem packed_eq_add (t : Tier) (v : VarInt) (h : v.toNat < 2 ^ (8 * t.len - 2)) :
    packed t v = t.tag * 2 ^ (8 * t.len - 2) + v.toNat := by
  rw [packed, ← Nat.shiftLeft_add_eq_or_of_lt h, Nat.shiftLeft_eq]

@[simp] theorem encodeBytes_length (v : VarInt) : (encodeBytes v).length = size v := by
  simp [encodeBytes]

/-- The tag masked off a first byte (R46). -/
theorem toNat_maskTag (b : Byte) : (b &&& 0x3F#8).toNat = b.toNat % 64 := by
  have := Nat.and_two_pow_sub_one_eq_mod b.toNat 6
  simpa [BitVec.toNat_and] using this

/-- `encoded_size` in numbers (R90). -/
theorem encodedSize_eq (b : Byte) : encodedSize b = 2 ^ (b.toNat / 64) := by
  have := b.isLt
  have e : b.toNat / 2 ^ 6 % 2 ^ 2 = b.toNat / 64 := by omega
  rw [encodedSize, toNat_slice, e, Nat.one_shiftLeft]

theorem encodedSize_cases (b : Byte) :
    encodedSize b = 1 ∨ encodedSize b = 2 ∨ encodedSize b = 4 ∨ encodedSize b = 8 := by
  have := b.isLt
  have h : b.toNat / 64 = 0 ∨ b.toNat / 64 = 1 ∨ b.toNat / 64 = 2 ∨ b.toNat / 64 = 3 := by omega
  rw [encodedSize_eq]
  rcases h with h | h | h | h <;> simp [h]

/-- The masked number never reaches 2^62 (R100). -/
theorem rawValue_lt (bs : List Byte) (h : bs.length ≤ 8) : rawValue bs < 2 ^ 62 := by
  cases bs with
  | nil => simp [rawValue]
  | cons b bs =>
    have hlen : bs.length ≤ 7 := by simp at h; omega
    have h1 := fromBe_lt bs
    have h2 : (256 : Nat) ^ bs.length ≤ 256 ^ 7 := Nat.pow_le_pow_right (by norm_num) hlen
    have h3 : (b &&& 0x3F#8).toNat ≤ 63 := by rw [toNat_maskTag]; omega
    have h4 : (b &&& 0x3F#8).toNat * 256 ^ bs.length ≤ 63 * 256 ^ bs.length := Nat.mul_le_mul_right _ h3
    simp only [rawValue, fromBe]
    omega

end Machine

end Sys2Proof
end

