-- ==== Sys2Proof/Laws/Formats.lean ====
section
/-! SUPPORT. The four wire formats: what the encoder packs is the format's lanes, what the decoder assembles from them is
the value field; which row a first byte and a raw value select. -/

namespace Sys2Proof

open Machine

/-- A group a row, with the bytes and the value of its item. -/
inductive IsItem : Instr → List Byte → Nat → Prop where
  | t1 (v : BitVec 6) : IsItem (.decT1 v) (w1 v) v.toNat
  | t2 (v : BitVec 14) : IsItem (.decT2 v) (w2 v) v.toNat
  | t4 (v : BitVec 30) : IsItem (.decT4 v) (w4 v) v.toNat
  | t8 (v : BitVec 62) : IsItem (.decT8 v) (w8 v) v.toNat

/-- A first byte in numbers: the four ranges of R90. -/
theorem wireTier_eq (b : Byte) :
    wireTier b = if b.toNat < 64 then .t1 else if b.toNat < 128 then .t2
      else if b.toNat < 192 then .t4 else .t8 := by
  have hb := b.isLt
  have key : ∀ p : Byte, ((b &&& 0xC0#8) == p) = decide (b.toNat / 64 * 64 = p.toNat) := by
    intro p
    have h := nat_and_shifted_ones b.toNat 6 2
    have h2 : b.toNat / 2 ^ 6 % 2 ^ 2 = b.toNat / 64 := by omega
    rw [h2] at h
    have e : (0xC0#8).toNat = (2 ^ 2 - 1) <<< 6 := by decide
    rw [Bool.eq_iff_iff]
    simp only [beq_iff_eq, decide_eq_true_eq, ← BitVec.toNat_inj, BitVec.toNat_and, e, h]
    norm_num
  unfold wireTier wireRows
  simp only [List.find?, MaskRow.applies, key, BitVec.toNat_ofNat]
  have h : b.toNat / 64 = 0 ∨ b.toNat / 64 = 1 ∨ b.toNat / 64 = 2 ∨ b.toNat / 64 = 3 := by omega
  rcases h with h | h | h | h
  · rw [if_pos (by omega), h]; rfl
  · rw [if_neg (by omega), if_pos (by omega), h]; rfl
  · rw [if_neg (by omega), if_neg (by omega), if_pos (by omega), h]; rfl
  · rw [if_neg (by omega), if_neg (by omega), if_neg (by omega), h]; rfl

theorem wireTier_len (b : Byte) : (wireTier b).len = encodedSize b := by
  have hb := b.isLt
  rw [wireTier_eq, encodedSize_eq]
  have h : b.toNat / 64 = 0 ∨ b.toNat / 64 = 1 ∨ b.toNat / 64 = 2 ∨ b.toNat / 64 = 3 := by omega
  rcases h with h | h | h | h <;> rw [h] <;> split_ifs <;> first | rfl | omega

/-- A tag in front of six bits, in numbers. -/
theorem toNat_tagged (t : BitVec 2) (x : BitVec 6) : (t ++ x : BitVec 8).toNat = t.toNat * 64 + x.toNat :=
  toNat_append_add t x

theorem encodedSize_tagged (t : BitVec 2) (x : BitVec 6) : encodedSize (t ++ x : BitVec 8) = 2 ^ t.toNat := by
  have := x.isLt
  rw [encodedSize_eq, toNat_tagged]
  congr 1
  omega

theorem IsItem.length_eq {i : Instr} {bs : List Byte} {v : Nat} (h : IsItem i bs v) :
    bs.length = 1 ∨ bs.length = 2 ∨ bs.length = 4 ∨ bs.length = 8 := by
  cases h <;> simp [w1, w2, w4, w8]

theorem IsItem.wf {i : Instr} {bs : List Byte} {v : Nat} (h : IsItem i bs v) : i.wf = true := by
  cases h <;> rfl

theorem IsItem.encode {i : Instr} {bs : List Byte} {v : Nat} (h : IsItem i bs v) : encode i = some bs := by
  cases h <;> rfl

/-- An item's first byte tells its length (R48). -/
theorem IsItem.head {i : Instr} {bs : List Byte} {v : Nat} (h : IsItem i bs v) :
    ∃ b rest, bs = b :: rest ∧ encodedSize b = bs.length := by
  cases h with
  | t1 v => exact ⟨_, _, rfl, encodedSize_tagged 0b00#2 v⟩
  | t2 v => exact ⟨_, _, rfl, encodedSize_tagged 0b01#2 _⟩
  | t4 v => exact ⟨_, _, rfl, encodedSize_tagged 0b10#2 _⟩
  | t8 v => exact ⟨_, _, rfl, encodedSize_tagged 0b11#2 _⟩

/-- An item's value is below its format's bound (R102). -/
theorem IsItem.value_lt {i : Instr} {bs : List Byte} {v : Nat} (h : IsItem i bs v) :
    v < 2 ^ (8 * bs.length - 2) := by
  cases h <;> simpa [w1, w2, w4, w8] using BitVec.isLt _

/-- Masking and assembling an item's bytes gives its value field (R46, R91). -/
theorem IsItem.rawValue {i : Instr} {bs : List Byte} {v : Nat} (h : IsItem i bs v) : rawValue bs = v := by
  cases h with
  | t1 v =>
    have hv := v.isLt
    simp only [w1, Machine.rawValue, fromBe, toNat_maskTag, toNat_tagged, List.length]
    omega
  | t2 v =>
    have hv := v.isLt
    simp only [w2, Machine.rawValue, fromBe, toNat_maskTag, toNat_tagged, toNat_slice, List.length]
    omega
  | t4 v =>
    have hv := v.isLt
    simp only [w4, Machine.rawValue, fromBe, toNat_maskTag, toNat_tagged, toNat_slice, List.length]
    omega
  | t8 v =>
    have hv := v.isLt
    simp only [w8, Machine.rawValue, fromBe, toNat_maskTag, toNat_tagged, toNat_slice, List.length]
    omega

/-- Two byte strings of one length that read as one number are equal. -/
theorem bytes_eq_of_fromBe {as bs : List Byte} (hl : as.length = bs.length) (h : fromBe as = fromBe bs) : as = bs := by
  rw [← be_fromBe as, ← be_fromBe bs, hl, h]

/-- The bytes an item has, as the packed integer of its tier (R47). -/
theorem IsItem.packed {i : Instr} {bs : List Byte} {v : Nat} (h : IsItem i bs v) (t : Tier) (ht : t.len = bs.length) :
    be t.len (t.tag * 2 ^ (8 * t.len - 2) + v) = bs := by
  have key : t.tag * 2 ^ (8 * t.len - 2) + v = fromBe bs := by
    cases h with
    | t1 v =>
      cases t <;> simp [w1, Tier.len] at ht
      simp [w1, fromBe, toNat_tagged, Tier.tag]
    | t2 v =>
      have hv := v.isLt
      cases t <;> simp [w2, Tier.len] at ht
      simp only [w2, fromBe, toNat_tagged, toNat_slice, List.length, Tier.tag, Tier.len, BitVec.toNat_ofNat]
      omega
    | t4 v =>
      have hv := v.isLt
      cases t <;> simp [w4, Tier.len] at ht
      simp only [w4, fromBe, toNat_tagged, toNat_slice, List.length, Tier.tag, Tier.len, BitVec.toNat_ofNat]
      omega
    | t8 v =>
      have hv := v.isLt
      cases t <;> simp [w8, Tier.len] at ht
      simp only [w8, fromBe, toNat_tagged, toNat_slice, List.length, Tier.tag, Tier.len, BitVec.toNat_ofNat]
      omega
  rw [key, ht, be_fromBe]

/-- An item of the tier that `size` selects is the encoding of its value (R47, R75 to R79). -/
theorem IsItem.encodeBytes {i : Instr} {bs : List Byte} {n : Nat} (h : IsItem i bs n) (v : VarInt) (hv : v.toNat = n)
    (hs : size v = bs.length) : encodeBytes v = bs := by
  rw [Machine.encodeBytes, packed_eq_add _ _ (lt_of_tierOf v), hv]
  exact h.packed (tierOf v) hs

/-- The encoding of a VarInt is an item with its value (R76 to R79). -/
theorem encodeBytes_isItem (v : VarInt) : ∃ i, IsItem i (Machine.encodeBytes v) v.toNat := by
  have narrow : ∀ n, v.toNat < 2 ^ n → (v.setWidth n).toNat = v.toNat := fun n h => by
    rw [BitVec.toNat_setWidth, Nat.mod_eq_of_lt h]
  rcases Nat.lt_or_ge v.toNat (2 ^ 6) with h6 | h6
  · have h := IsItem.t1 (v.setWidth 6)
    rw [narrow 6 h6] at h
    rw [h.encodeBytes v rfl (by rw [size, tierOf_t1 h6]; rfl)]
    exact ⟨_, h⟩
  · rcases Nat.lt_or_ge v.toNat (2 ^ 14) with h14 | h14
    · have h := IsItem.t2 (v.setWidth 14)
      rw [narrow 14 h14] at h
      rw [h.encodeBytes v rfl (by rw [size, tierOf_t2 h6 h14]; rfl)]
      exact ⟨_, h⟩
    · rcases Nat.lt_or_ge v.toNat (2 ^ 30) with h30 | h30
      · have h := IsItem.t4 (v.setWidth 30)
        rw [narrow 30 h30] at h
        rw [h.encodeBytes v rfl (by rw [size, tierOf_t4 h14 h30]; rfl)]
        exact ⟨_, h⟩
      · have h := IsItem.t8 v
        rw [h.encodeBytes v rfl (by rw [size, tierOf_t8 h30]; rfl)]
        exact ⟨_, h⟩

/-- Any non-empty byte string that is as long as its first byte demands begins with an item, which is what the decoder
reads (R46, R50). -/
theorem decode_long (b : Byte) (rest : List Byte) (h : encodedSize b ≤ rest.length + 1) :
    ∃ i bs v tl, decode (b :: rest) = .ok (i, tl) ∧ IsItem i bs v ∧ b :: rest = bs ++ tl := by
  have hb := b.isLt
  rw [← wireTier_len] at h
  have tagged : ∀ t : BitVec 2, b.toNat / 64 = t.toNat → b = t ++ b.extractLsb' 0 6 := by
    intro t ht
    apply BitVec.eq_of_toNat_eq
    rw [toNat_tagged, toNat_slice, ← ht]
    omega
  rcases ht : wireTier b with _ | _ | _ | _
  · refine ⟨_, _, _, rest, ?_, .t1 (b.extractLsb' 0 6), ?_⟩
    · simp [decode, ht]
    · rw [wireTier_eq] at ht
      have : b = 0b00#2 ++ b.extractLsb' 0 6 := tagged _ (by split_ifs at ht; simp; omega)
      simpa [w1] using this
  · rw [ht] at h
    obtain ⟨b1, tl, rfl⟩ : ∃ b1 tl, rest = b1 :: tl := by
      rcases rest with _ | ⟨b1, tl⟩
      · simp [Tier.len] at h
      · exact ⟨b1, tl, rfl⟩
    have h1 := b1.isLt
    refine ⟨_, _, _, tl, ?_, .t2 (b.extractLsb' 0 6 ++ b1), ?_⟩
    · simp [decode, ht]
    · rw [wireTier_eq] at ht
      have e : b.toNat / 64 = 1 := by split_ifs at ht; omega
      simp only [w2, List.cons_append, List.nil_append, List.cons.injEq, and_true]
      constructor <;>
      · apply BitVec.eq_of_toNat_eq
        simp only [toNat_slice, toNat_append_add, BitVec.toNat_ofNat]
        omega
  · rw [ht] at h
    obtain ⟨b1, b2, b3, tl, rfl⟩ : ∃ b1 b2 b3 tl, rest = b1 :: b2 :: b3 :: tl := by
      rcases rest with _ | ⟨b1, _ | ⟨b2, _ | ⟨b3, tl⟩⟩⟩
      · simp [Tier.len] at h
      · simp [Tier.len] at h
      · simp [Tier.len] at h
      · exact ⟨b1, b2, b3, tl, rfl⟩
    have h1 := b1.isLt
    have h2 := b2.isLt
    have h3 := b3.isLt
    refine ⟨_, _, _, tl, ?_, .t4 (b.extractLsb' 0 6 ++ b1 ++ b2 ++ b3), ?_⟩
    · simp [decode, ht]
    · rw [wireTier_eq] at ht
      have e : b.toNat / 64 = 2 := by split_ifs at ht; omega
      simp only [w4, List.cons_append, List.nil_append, List.cons.injEq, and_true]
      refine ⟨?_, ?_, ?_, ?_⟩ <;>
      · apply BitVec.eq_of_toNat_eq
        simp only [toNat_slice, toNat_append_add, BitVec.toNat_ofNat]
        omega
  · rw [ht] at h
    obtain ⟨b1, b2, b3, b4, b5, b6, b7, tl, rfl⟩ :
        ∃ b1 b2 b3 b4 b5 b6 b7 tl, rest = b1 :: b2 :: b3 :: b4 :: b5 :: b6 :: b7 :: tl := by
      rcases rest with _ | ⟨b1, _ | ⟨b2, _ | ⟨b3, _ | ⟨b4, _ | ⟨b5, _ | ⟨b6, _ | ⟨b7, tl⟩⟩⟩⟩⟩⟩⟩
      all_goals first
        | exact ⟨_, _, _, _, _, _, _, _, rfl⟩
        | simp [Tier.len] at h
    have h1 := b1.isLt
    have h2 := b2.isLt
    have h3 := b3.isLt
    have h4 := b4.isLt
    have h5 := b5.isLt
    have h6 := b6.isLt
    have h7 := b7.isLt
    refine ⟨_, _, _, tl, ?_, .t8 (b.extractLsb' 0 6 ++ b1 ++ b2 ++ b3 ++ b4 ++ b5 ++ b6 ++ b7), ?_⟩
    · simp [decode, ht]
    · rw [wireTier_eq] at ht
      have e : b.toNat / 64 = 3 := by split_ifs at ht; omega
      simp only [w8, List.cons_append, List.nil_append, List.cons.injEq, and_true]
      refine ⟨?_, ?_, ?_, ?_, ?_, ?_, ?_, ?_⟩ <;>
      · apply BitVec.eq_of_toNat_eq
        simp only [toNat_slice, toNat_append_add, BitVec.toNat_ofNat]
        omega

/-- A byte string shorter than its first byte demands gives no item (R50, R97). -/
theorem decode_short (b : Byte) (rest : List Byte) (h : rest.length + 1 < encodedSize b) :
    decode (b :: rest) = .error (.shortRead (encodedSize b)) := by
  rw [← wireTier_len] at h ⊢
  rcases ht : wireTier b with _ | _ | _ | _
  · simp [ht, Tier.len] at h
  · rcases rest with _ | ⟨b1, tl⟩
    · simp [decode, ht]
    · simp [ht, Tier.len] at h
  · rcases rest with _ | ⟨b1, _ | ⟨b2, _ | ⟨b3, tl⟩⟩⟩
    · simp [decode, ht]
    · simp [decode, ht]
    · simp [decode, ht]
    · simp [ht, Tier.len] at h
      omega
  · rcases rest with _ | ⟨b1, _ | ⟨b2, _ | ⟨b3, _ | ⟨b4, _ | ⟨b5, _ | ⟨b6, _ | ⟨b7, tl⟩⟩⟩⟩⟩⟩⟩
    all_goals first
      | (simp [decode, ht]; done)
      | (simp [ht, Tier.len] at h; omega)

/-- The mask of the rows in the encoder's map tests the bits from `k` up. -/
theorem encMask (r : Word64) (k : Nat) (m : BitVec 64) (hk : k ≤ 64) (hm : m.toNat = (2 ^ (64 - k) - 1) <<< k) :
    ((r &&& m) == 0#64) = decide (r.toNat < 2 ^ k) := by
  have h := nat_and_shifted_ones r.toNat k (64 - k)
  rw [Bool.eq_iff_iff]
  simp only [beq_iff_eq, decide_eq_true_eq, ← BitVec.toNat_inj, BitVec.toNat_and, hm, h]
  have hlt : r.toNat / 2 ^ k < 2 ^ (64 - k) := by
    apply Nat.div_lt_of_lt_mul
    rw [← Nat.pow_add, show k + (64 - k) = 64 by omega]
    exact r.isLt
  rw [Nat.mod_eq_of_lt hlt]
  simp

/-- The row of the format map that a raw value reaches, in numbers (R49, R54). -/
theorem selectFormat_eq (r : Word64) :
    selectFormat r = if r.toNat < 2 ^ 6 then .encT1 (r.extractLsb' 0 6)
      else if r.toNat < 2 ^ 14 then .encT2 (r.extractLsb' 0 14)
      else if r.toNat < 2 ^ 30 then .encT4 (r.extractLsb' 0 30)
      else if r.toNat < 2 ^ 62 then .encT8 (r.extractLsb' 0 62) else .encRange r := by
  unfold selectFormat encRows
  simp only [List.find?, MaskRow.applies]
  rw [encMask r 6 _ (by norm_num) (by decide), encMask r 14 _ (by norm_num) (by decide),
    encMask r 30 _ (by norm_num) (by decide), encMask r 62 _ (by norm_num) (by decide)]
  have h0 : ((r &&& 0#64) == 0#64) = true := by simp
  split_ifs <;> simp only [*, decide_true, decide_false]

end Sys2Proof
end

