-- ==== Sys2Proof/Laws/Memory.lean ====
section
/-! SUPPORT. The laws of the buffer: read after write, everything else left alone, the canonical form kept. -/

namespace Sys2Proof.Machine

theorem Memory.get_set_same (m : Memory) (k : Nat) (x : Byte) : (m.set k x).get k = some x := by
  induction m with
  | nil => simp [Memory.set, Memory.get]
  | cons c rest ih =>
    obtain ⟨a, b⟩ := c
    simp only [Memory.set]
    split_ifs with h1 h2
    · simp [Memory.get]
    · simp [Memory.get]
    · simpa [Memory.get, h2] using ih

theorem Memory.get_set_other (m : Memory) {j k : Nat} (x : Byte) (h : j ≠ k) : (m.set k x).get j = m.get j := by
  induction m with
  | nil => simp [Memory.set, Memory.get, Ne.symm h]
  | cons c rest ih =>
    obtain ⟨a, b⟩ := c
    simp only [Memory.set]
    split_ifs with h1 h2
    · simp [Memory.get, Ne.symm h]
    · subst h2
      simp [Memory.get, Ne.symm h]
    · simp [Memory.get, ih]

/-- All indices of a buffer are at least `lo`, and they rise strictly. -/
theorem Memory.wf_cons (a : Nat) (b : Byte) (m : Memory) :
    Memory.wf ((a, b) :: m) = true ↔ (∀ c ∈ m.head?, a < c.1) ∧ m.wf = true := by
  cases m with
  | nil => simp [Memory.wf]
  | cons d rest => simp [Memory.wf]

theorem Memory.head_set (m : Memory) (k : Nat) (x : Byte) (lo : Nat) (hk : lo < k)
    (hm : ∀ c ∈ m.head?, lo < c.1) : ∀ c ∈ (m.set k x).head?, lo < c.1 := by
  cases m with
  | nil => simpa [Memory.set] using hk
  | cons d rest =>
    obtain ⟨a, b⟩ := d
    simp only [Memory.set]
    split_ifs <;> simp_all

/-- A write keeps the canonical form. -/
theorem Memory.set_wf (m : Memory) (k : Nat) (x : Byte) (h : m.wf = true) : (m.set k x).wf = true := by
  induction m with
  | nil => rfl
  | cons c rest ih =>
    obtain ⟨a, b⟩ := c
    have h' := (Memory.wf_cons a b rest).mp h
    simp only [Memory.set]
    split_ifs with h1 h2
    · rw [Memory.wf_cons]
      exact ⟨by simpa using h1, h⟩
    · subst h2
      rw [Memory.wf_cons]
      exact h'
    · rw [Memory.wf_cons]
      exact ⟨Memory.head_set rest k x a (by omega) h'.1, ih h'.2⟩

theorem memWrite_wf (bs : List Byte) : ∀ (m : Memory) (a : Nat), m.wf = true → (memWrite m a bs).wf = true := by
  induction bs with
  | nil => intro m a h; exact h
  | cons b bs ih => intro m a h; exact ih _ _ (m.set_wf a b h)

/-- `MemWrite` "changes no other byte" (R28). -/
theorem memWrite_get_other (bs : List Byte) :
    ∀ (m : Memory) (a k : Nat), (k < a ∨ a + bs.length ≤ k) → (memWrite m a bs).get k = m.get k := by
  induction bs with
  | nil => intro m a k _; rfl
  | cons b bs ih =>
    intro m a k h
    simp only [List.length_cons] at h
    rw [memWrite, ih _ _ _ (by omega), Memory.get_set_other _ _ (by omega)]

/-- `MemWrite` "sets `buf[addr + i] <- bytes[i]`" (R28). -/
theorem memWrite_get_in (bs : List Byte) :
    ∀ (m : Memory) (a k : Nat), k < bs.length → (memWrite m a bs).get (a + k) = bs[k]? := by
  induction bs with
  | nil => intro m a k h; simp at h
  | cons b bs ih =>
    intro m a k h
    cases k with
    | zero =>
      rw [memWrite, memWrite_get_other _ _ _ _ (by omega)]
      simpa using m.get_set_same a b
    | succ k =>
      have := ih (m.set a b) (a + 1) k (by simpa using h)
      rw [memWrite]
      simpa [Nat.add_assoc, Nat.add_comm 1 k] using this

theorem readByte_ok {cap : Nat} {m : Memory} {a : Nat} {b : Byte} (h : m.get a = some b) :
    readByte cap m a = .ok b := by
  simp [readByte, h]

/-- `MemRead` returns the bytes that are there (R27). -/
theorem memRead_ok (cap : Nat) (m : Memory) (bs : List Byte) :
    ∀ a, (∀ k, k < bs.length → m.get (a + k) = bs[k]?) → memRead cap m a bs.length = .ok bs := by
  induction bs with
  | nil => intro a _; rfl
  | cons b bs ih =>
    intro a h
    have h0 : m.get a = some b := by simpa using h 0 (by simp)
    have h1 : ∀ k, k < bs.length → m.get (a + 1 + k) = bs[k]? := by
      intro k hk
      have := h (k + 1) (by simpa using hk)
      simpa [Nat.add_assoc, Nat.add_comm 1 k] using this
    simp only [List.length_cons, memRead, readByte_ok h0, ih (a + 1) h1]

/-- What `MemRead` answered is what is there, `n` bytes of it. -/
theorem memRead_inv (cap : Nat) (m : Memory) :
    ∀ (n a : Nat) (bs : List Byte), memRead cap m a n = .ok bs →
      bs.length = n ∧ ∀ k, k < n → m.get (a + k) = bs[k]? := by
  intro n
  induction n with
  | zero =>
    intro a bs h
    simp only [memRead, Except.ok.injEq] at h
    subst h
    simp
  | succ n ih =>
    intro a bs h
    simp only [memRead] at h
    rcases h1 : readByte cap m a with f | b
    · simp [h1] at h
    · rcases h2 : memRead cap m (a + 1) n with f | cs
      · simp [h1, h2] at h
      · simp only [h1, h2, Except.ok.injEq] at h
        subst h
        obtain ⟨hl, hk⟩ := ih _ _ h2
        refine ⟨by simp [hl], ?_⟩
        intro k hkn
        cases k with
        | zero =>
          simp only [readByte] at h1
          rcases h3 : m.get a with _ | b'
          · simp [h3] at h1
          · simp only [h3, Except.ok.injEq] at h1
            simp [h1]
        | succ k =>
          have := hk k (by omega)
          simpa [Nat.add_assoc, Nat.add_comm 1 k] using this

/-- `MemRead` succeeds where every byte has a value. -/
theorem memRead_total (cap : Nat) (m : Memory) :
    ∀ (n a : Nat), (∀ k, k < n → (m.get (a + k)).isSome = true) → ∃ bs, memRead cap m a n = .ok bs := by
  intro n
  induction n with
  | zero => intro a _; exact ⟨[], rfl⟩
  | succ n ih =>
    intro a h
    obtain ⟨b, hb⟩ := Option.isSome_iff_exists.mp (h 0 (by omega))
    obtain ⟨bs, hbs⟩ := ih (a + 1) (by
      intro k hk
      have := h (k + 1) (by omega)
      simpa [Nat.add_assoc, Nat.add_comm 1 k] using this)
    exact ⟨b :: bs, by simp only [memRead, readByte_ok (by simpa using hb), hbs]⟩

end Sys2Proof.Machine
end

