-- ==== Sys2Proof/Laws/State.lean ====
section
/-! SUPPORT. One lemma per field of each update of the state. -/

namespace Sys2Proof.Machine

section
variable (ei : EncIn) (eo : EncOut) (di : DecIn) (d : DecOut) (s : State) (r : LineResult)

@[simp] theorem setPorts_encIn : (setPorts ei eo di d s).encIn = ei := rfl
@[simp] theorem setPorts_encOut : (setPorts ei eo di d s).encOut = eo := rfl
@[simp] theorem setPorts_decIn : (setPorts ei eo di d s).decIn = di := rfl
@[simp] theorem setPorts_decOut : (setPorts ei eo di d s).decOut = d := rfl
@[simp] theorem setPorts_cap : (setPorts ei eo di d s).cap = s.cap := rfl
@[simp] theorem setPorts_buf : (setPorts ei eo di d s).buf = s.buf := rfl
@[simp] theorem setPorts_wrPos : (setPorts ei eo di d s).wrPos = s.wrPos := rfl
@[simp] theorem setPorts_rdPos : (setPorts ei eo di d s).rdPos = s.rdPos := rfl
@[simp] theorem setPorts_script : (setPorts ei eo di d s).script = s.script := rfl
@[simp] theorem setPorts_results : (setPorts ei eo di d s).results = s.results := rfl
@[simp] theorem setPorts_tick : (setPorts ei eo di d s).tick = s.tick + 1 := rfl

@[simp] theorem record_encIn : (record r s).encIn = s.encIn := rfl
@[simp] theorem record_encOut : (record r s).encOut = s.encOut := rfl
@[simp] theorem record_decIn : (record r s).decIn = s.decIn := rfl
@[simp] theorem record_decOut : (record r s).decOut = s.decOut := rfl
@[simp] theorem record_cap : (record r s).cap = s.cap := rfl
@[simp] theorem record_buf : (record r s).buf = s.buf := rfl
@[simp] theorem record_wrPos : (record r s).wrPos = s.wrPos := rfl
@[simp] theorem record_rdPos : (record r s).rdPos = s.rdPos := rfl
@[simp] theorem record_script : (record r s).script = s.script := rfl
@[simp] theorem record_results : (record r s).results = s.results ++ [r] := rfl
@[simp] theorem record_tick : (record r s).tick = s.tick := rfl

@[simp] theorem popLine_encIn : (popLine s).encIn = s.encIn := rfl
@[simp] theorem popLine_encOut : (popLine s).encOut = s.encOut := rfl
@[simp] theorem popLine_decIn : (popLine s).decIn = s.decIn := rfl
@[simp] theorem popLine_decOut : (popLine s).decOut = s.decOut := rfl
@[simp] theorem popLine_cap : (popLine s).cap = s.cap := rfl
@[simp] theorem popLine_buf : (popLine s).buf = s.buf := rfl
@[simp] theorem popLine_wrPos : (popLine s).wrPos = s.wrPos := rfl
@[simp] theorem popLine_rdPos : (popLine s).rdPos = s.rdPos := rfl
@[simp] theorem popLine_script : (popLine s).script = s.script.tail := rfl
@[simp] theorem popLine_results : (popLine s).results = s.results := rfl
@[simp] theorem popLine_tick : (popLine s).tick = s.tick := rfl

@[simp] theorem encOff_valid : (encOff s).valid = false := rfl
@[simp] theorem encOff_value : (encOff s).value = s.encIn.value := rfl
@[simp] theorem encOff_room : (encOff s).room = s.encIn.room := rfl
@[simp] theorem decOff_valid : (decOff s).valid = false := rfl
@[simp] theorem decOff_lanes : (decOff s).lanes = s.decIn.lanes := rfl
@[simp] theorem decOff_avail : (decOff s).avail = s.decIn.avail := rfl

end

end Sys2Proof.Machine
end

