-- ==== Sys2Proof/Laws/Calls.lean ====
section
/-! SUPPORT. What one call of each module answers, in the cases of 10_state.md R12 and R15, and that the rows of the
operation table answer the same. -/

namespace Sys2Proof.Machine

theorem take_fill (bs : List Byte) (o : Lanes) (h : bs.length ≤ 8) : (Lanes.fill bs o).toList.take bs.length = bs := by
  rcases bs with _ | ⟨b0, _ | ⟨b1, _ | ⟨b2, _ | ⟨b3, _ | ⟨b4, _ | ⟨b5, _ | ⟨b6, _ | ⟨b7, _ | ⟨b8, tl⟩⟩⟩⟩⟩⟩⟩⟩⟩
  all_goals first
    | rfl
    | (simp at h; omega)

theorem toList_length (l : Lanes) : l.toList.length = 8 := rfl

theorem toNat_len4 {n : Nat} (h : n ≤ 8) : (BitVec.ofNat 4 n).toNat = n := by
  rw [BitVec.toNat_ofNat]
  omega

theorem toNat_size4 (v : VarInt) : (BitVec.ofNat 4 (size v)).toNat = size v :=
  toNat_len4 (by have := size_cases v; omega)

theorem toNat_encodedSize4 (b : Byte) : (BitVec.ofNat 4 (encodedSize b)).toNat = encodedSize b :=
  toNat_len4 (by have := encodedSize_cases b; omega)

/-- The sink takes exactly the bytes of an ok call (R80, R82). -/
theorem taken_done (bs : List Byte) (h : bs.length ≤ 8) : (EncOut.done bs).taken = bs := by
  rw [EncOut.taken]
  simp only [EncOut.done, toNat_len4 h]
  exact take_fill bs _ h

theorem encEval_idle (i : EncIn) (free : Lanes) (h : i.valid = false) : encEval i free = .idle free := by
  simp [encEval, h]

theorem encEval_range (i : EncIn) (free : Lanes) (hv : i.valid = true) (h : 2 ^ 62 ≤ i.value.toNat) :
    encEval i free = .failed .range 0 free := by
  simp [encEval, hv, toVarInt_of_ge h]

theorem encEval_io (i : EncIn) (free : Lanes) (v : VarInt) (hv : i.valid = true) (hw : i.value = varintWord v)
    (h : i.room.toNat < size v) : encEval i free = .failed .io (size v) free := by
  simp [encEval, hv, hw, h]

theorem encEval_ok (i : EncIn) (free : Lanes) (v : VarInt) (hv : i.valid = true) (hw : i.value = varintWord v)
    (h : size v ≤ i.room.toNat) : encEval i free = .done (encodeBytes v) := by
  simp [encEval, hv, hw, Nat.not_lt.mpr h]

/-- One encoder call, in the cases of R12. -/
theorem encEval_cases (i : EncIn) (free : Lanes) :
    (i.valid = false ∧ encEval i free = .idle free) ∨
    (i.valid = true ∧ 2 ^ 62 ≤ i.value.toNat ∧ encEval i free = .failed .range 0 free) ∨
    (∃ v, i.valid = true ∧ i.value = varintWord v ∧ i.room.toNat < size v ∧
      encEval i free = .failed .io (size v) free) ∨
    (∃ v, i.valid = true ∧ i.value = varintWord v ∧ size v ≤ i.room.toNat ∧
      encEval i free = .done (encodeBytes v)) := by
  rcases hv : i.valid with _ | _
  · exact .inl ⟨rfl, encEval_idle i free hv⟩
  · rcases Nat.lt_or_ge i.value.toNat (2 ^ 62) with h | h
    · have hw := eq_varintWord h
      rcases Nat.lt_or_ge i.room.toNat (size (i.value.extractLsb' 0 62)) with hr | hr
      · exact .inr (.inr (.inl ⟨_, rfl, hw, hr, encEval_io i free _ hv hw hr⟩))
      · exact .inr (.inr (.inr ⟨_, rfl, hw, hr, encEval_ok i free _ hv hw hr⟩))
    · exact .inr (.inl ⟨rfl, h, encEval_range i free hv h⟩)

theorem decEval_idle (i : DecIn) (free : Word64) (h : i.valid = false) : decEval i free = .idle free := by
  simp [decEval, h]

theorem decEval_empty (i : DecIn) (free : Word64) (hv : i.valid = true) (h : i.avail.toNat = 0) :
    decEval i free = .failed .io 0 free := by
  simp [decEval, hv, h]

theorem decEval_short (i : DecIn) (free : Word64) (hv : i.valid = true) (h0 : i.avail.toNat ≠ 0)
    (h : i.avail.toNat < encodedSize i.lanes.b0) : decEval i free = .failed .io (encodedSize i.lanes.b0) free := by
  simp [decEval, hv, h0, h]

/-- The range re-check never fires (R100). -/
theorem rawWindow_lt (l : Lanes) (n : Nat) : rawValue (l.toList.take n) < Config.bound := by
  have : (l.toList.take n).length ≤ 8 := by
    rw [List.length_take, toList_length]
    omega
  exact rawValue_lt _ this

theorem decEval_ok (i : DecIn) (free : Word64) (hv : i.valid = true) (h : encodedSize i.lanes.b0 ≤ i.avail.toNat) :
    decEval i free = .done (BitVec.ofNat 64 (rawValue (i.lanes.toList.take (encodedSize i.lanes.b0))))
      (encodedSize i.lanes.b0) := by
  have h0 : i.avail.toNat ≠ 0 := by
    have := encodedSize_cases i.lanes.b0
    omega
  have hr := rawWindow_lt i.lanes (encodedSize i.lanes.b0)
  simp only [decEval, hv, h0, Nat.not_lt.mpr h, Nat.not_le.mpr hr, if_true, if_false]

/-- One decoder call, in the cases of R15 that can arise. -/
theorem decEval_cases (i : DecIn) (free : Word64) :
    (i.valid = false ∧ decEval i free = .idle free) ∨
    (i.valid = true ∧ i.avail.toNat = 0 ∧ decEval i free = .failed .io 0 free) ∨
    (i.valid = true ∧ i.avail.toNat ≠ 0 ∧ i.avail.toNat < encodedSize i.lanes.b0 ∧
      decEval i free = .failed .io (encodedSize i.lanes.b0) free) ∨
    (i.valid = true ∧ encodedSize i.lanes.b0 ≤ i.avail.toNat ∧
      decEval i free = .done (BitVec.ofNat 64 (rawValue (i.lanes.toList.take (encodedSize i.lanes.b0))))
        (encodedSize i.lanes.b0)) := by
  rcases hv : i.valid with _ | _
  · exact .inl ⟨rfl, decEval_idle i free hv⟩
  · by_cases h0 : i.avail.toNat = 0
    · exact .inr (.inl ⟨rfl, h0, decEval_empty i free hv h0⟩)
    · rcases Nat.lt_or_ge i.avail.toNat (encodedSize i.lanes.b0) with h | h
      · exact .inr (.inr (.inl ⟨rfl, h0, h, decEval_short i free hv h0 h⟩))
      · exact .inr (.inr (.inr ⟨rfl, h, decEval_ok i free hv h⟩))

/-- The room the harness presents. -/
theorem sinkRoom_le (s : State) : sinkRoom s ≤ 8 := by simp [sinkRoom]

theorem sinkRoom_le_free (s : State) : sinkRoom s ≤ s.cap - s.wrPos := by simp [sinkRoom]

theorem sourceAvail_le (s : State) : sourceAvail s ≤ 8 := by simp [sourceAvail]

theorem sourceAvail_le_unread (s : State) : sourceAvail s ≤ unreadCount s := by simp [sourceAvail]

/-- A row of the format map answers what the encoder answers for its value (R76 to R79 against R75). -/
theorem encRowOut_eq (v : VarInt) (room : Nat) (hr : room ≤ 8) (free : Lanes) :
    encRowOut (encodeBytes v) room free = encEval ⟨true, varintWord v, BitVec.ofNat 4 room⟩ free := by
  simp only [encRowOut, encEval, toNat_len4 hr, toVarInt_varintWord, encodeBytes_length, if_true]

/-- The encoder call of a row of the format map is the encoder call of its value. -/
theorem encRow_eq (v : VarInt) (s : State) : encRow (varintWord v) (encodeBytes v) s = encOp (varintWord v) s := by
  simp only [encRow, encOp, encCall, encRowOut_eq v _ (sinkRoom_le s)]

/-- The lane that shows byte 0 of a window. -/
theorem fill_b0 (b : Byte) (bs : List Byte) (o : Lanes) : (Lanes.fill (b :: bs) o).b0 = b := rfl

theorem take_fill_of_le (bs : List Byte) (o : Lanes) (h : bs.length ≤ 8) (n : Nat) (hn : n ≤ bs.length) :
    (Lanes.fill bs o).toList.take n = bs.take n := by
  conv_rhs => rw [← take_fill bs o h]
  rw [List.take_take, Nat.min_eq_left hn]

/-- The row of an item answers what the decoder answers for a window whose real bytes agree with the item (R92 to R97
against R91). -/
theorem itemOut_eq {i : Instr} {bs : List Byte} {v : Nat} (hi : IsItem i bs v) (real : List Byte) (h8 : real.length ≤ 8)
    (hagree : real.take bs.length = bs.take real.length) (o : Lanes) (free : Word64) :
    itemOut bs.length (BitVec.ofNat 64 v) real.length free
      = decEval ⟨true, Lanes.fill real o, BitVec.ofNat 4 real.length⟩ free := by
  obtain ⟨b, rest, hb, hlen⟩ := hi.head
  rcases real with _ | ⟨r0, rs⟩
  · simp [itemOut, decEval]
  · have hr0 : r0 = b := by
      subst hb
      have := congrArg List.head? hagree
      simpa using this
    subst hr0
    have hnz : ¬ (r0 :: rs).length = 0 := by simp
    have h4 := toNat_len4 h8
    rw [itemOut, if_neg hnz]
    by_cases hlt : (r0 :: rs).length < bs.length
    · rw [if_pos hlt, decEval_short _ _ rfl (by rw [h4]; exact hnz)
        (by rw [h4, fill_b0, hlen]; exact hlt)]
      simp [fill_b0, hlen]
    · rw [if_neg hlt, decEval_ok _ _ rfl (by rw [h4, fill_b0, hlen]; exact Nat.not_lt.mp hlt)]
      have hle : bs.length ≤ (r0 :: rs).length := Nat.not_lt.mp hlt
      have ht : (r0 :: rs).take bs.length = bs := by
        rw [hagree, List.take_of_length_le hle]
      simp only [fill_b0, hlen, take_fill_of_le _ _ h8 _ hle, ht, hi.rawValue]

/-- The decoder call of an item's row is the decoder call of DEC, where the unread bytes are that item or a beginning of
it. -/
theorem decItem_eq {i : Instr} {bs : List Byte} {v : Nat} (hi : IsItem i bs v) (s : State) (real : List Byte)
    (h : nextBytes (sourceAvail s) s = .ok real) (hagree : real.take bs.length = bs.take real.length) :
    decItem bs (BitVec.ofNat 64 v) s = execDec s := by
  have hlen : real.length ≤ 8 := by
    rw [(memRead_inv _ _ _ _ _ h).1]
    exact sourceAvail_le s
  simp only [decItem, execDec, decOp, h, hagree, if_true, finishOr, decCall, showBytes]
  rw [itemOut_eq hi real hlen hagree (Config.floatLanes s.tick)]

end Sys2Proof.Machine
end

