-- ==== Sys2Proof/Laws/Effect.lean ====
section
/-! SUPPORT. Said once: everything an operation can do when it answers a next state. Its ports are a module's function
of its inputs; the harness is unchanged, or read, or written; a failed call moves nothing. -/

namespace Sys2Proof.Machine

/-- The ways an operation moves the harness (10_state.md R20). -/
inductive Moved (s t : State) : Prop where
  | same (h : HarnessSame s t)
  | read (n : Nat) (pos : 1 ≤ n) (le : n ≤ unreadCount s) (h : HarnessRead n s t)
  | wrote (bs : List Byte) (pos : 1 ≤ bs.length) (le : bs.length ≤ s.cap - s.wrPos)
      (buf : t.buf = memWrite s.buf s.wrPos bs) (h : HarnessWrote bs s t)

/-- Everything an operation with result `r` can have done to `s`, before its result is recorded. -/
structure Effect (s t : State) (r : Result) : Prop where
  ports : PortsOk t
  moved : Moved s t
  failed : r.isErr = true → HarnessSame s t
  results : t.results = s.results

theorem HarnessSame.refl (s : State) : HarnessSame s s := ⟨rfl, rfl, rfl, rfl, rfl⟩

theorem encOff_eval (s : State) (free : Lanes) : encEval (encOff s) free = .idle free := encEval_idle _ _ rfl

theorem decOff_eval (s : State) (free : Word64) : decEval (decOff s) free = .idle free := decEval_idle _ _ rfl

theorem encCall_portsOk (r : Word64) (room : Nat) (s : State) : PortsOk (encCall r room s) :=
  ⟨⟨_, rfl⟩, ⟨_, (decOff_eval s _).symm⟩⟩

theorem decCall_portsOk (i : DecIn) (s : State) : PortsOk (decCall i s) :=
  ⟨⟨_, (encOff_eval s _).symm⟩, ⟨_, rfl⟩⟩

theorem noCall_portsOk (s : State) : PortsOk (noCall s) :=
  ⟨⟨_, (encOff_eval s _).symm⟩, ⟨_, (decOff_eval s _).symm⟩⟩

theorem setPorts_same (ei : EncIn) (eo : EncOut) (di : DecIn) (d : DecOut) (s : State) :
    HarnessSame s (setPorts ei eo di d s) := ⟨rfl, rfl, rfl, rfl, rfl⟩

theorem encCall_same (r : Word64) (room : Nat) (s : State) : HarnessSame s (encCall r room s) :=
  setPorts_same _ _ _ _ _

theorem decCall_same (i : DecIn) (s : State) : HarnessSame s (decCall i s) := setPorts_same _ _ _ _ _

theorem noCall_same (s : State) : HarnessSame s (noCall s) := setPorts_same _ _ _ _ _

/-- An operation that only evaluates a module and records a result. -/
theorem Effect.ofEncCall (r : Word64) (room : Nat) (s : State) (x : Result) : Effect s (encCall r room s) x :=
  ⟨encCall_portsOk r room s, .same (encCall_same r room s), fun _ => encCall_same r room s, rfl⟩

theorem Effect.ofDecCall (i : DecIn) (s : State) (x : Result) : Effect s (decCall i s) x :=
  ⟨decCall_portsOk i s, .same (decCall_same i s), fun _ => decCall_same i s, rfl⟩

theorem encCall_encOut (r : Word64) (room : Nat) (s : State) :
    (encCall r room s).encOut = encEval ⟨true, r, BitVec.ofNat 4 room⟩ (Config.freeLanes s.tick) := rfl

theorem decCall_decOut (i : DecIn) (s : State) : (decCall i s).decOut = decEval i (Config.freeValue s.tick) := rfl

@[simp] theorem errOfCode_code (e : ErrKind) : errOfCode e.code = e := by cases e <;> rfl

/-- A failed call changes nothing and reports its error (R20). -/
theorem takeEnc_failed {s : State} {e : ErrKind} {n : Nat} {free : Lanes} (h : s.encOut = .failed e n free) :
    takeEnc s = (s, .err e) := by
  simp [takeEnc, h, EncOut.failed]

/-- An ok encoder call: the bytes are written and the write position moves past them (R20). -/
theorem takeEnc_done {s : State} {bs : List Byte} (h : s.encOut = .done bs) (h8 : bs.length ≤ 8) :
    takeEnc s = ({ s with buf := memWrite s.buf s.wrPos bs, wrPos := s.wrPos + bs.length }, .bytes bs) := by
  have hok : (EncOut.done bs).ok = true := rfl
  have hlen : (EncOut.done bs).len.toNat = bs.length := toNat_len4 h8
  simp only [takeEnc, h, hok, if_true, taken_done bs h8, hlen]

theorem takeDec_failed {s : State} {e : ErrKind} {n : Nat} {free : Word64} (h : s.decOut = .failed e n free) :
    takeDec s = (s, .err e) := by
  simp [takeDec, h, DecOut.failed]

/-- An ok decoder call: the read position moves by the byte count (R20, R103). -/
theorem takeDec_done {s : State} {v : Word64} {n : Nat} (h : s.decOut = .done v n) (h8 : n ≤ 8) :
    takeDec s = ({ s with rdPos := s.rdPos + n }, .decoded v n) := by
  have hok : (DecOut.done v n).ok = true := rfl
  have hlen : (DecOut.done v n).len.toNat = n := toNat_len4 h8
  have hval : (DecOut.done v n).value = v := rfl
  simp only [takeDec, h, hok, if_true, hlen, hval]

/-- The encoder call on the harness, in its two cases: the bytes of the encoding are taken, or nothing moves. -/
theorem encOp_cases (r : Word64) (s : State) :
    (∃ v, r = varintWord v ∧ size v ≤ sinkRoom s ∧
      (encCall r (sinkRoom s) s).encOut = .done (encodeBytes v) ∧
      encOp r s = ({ encCall r (sinkRoom s) s with
        buf := memWrite s.buf s.wrPos (encodeBytes v), wrPos := s.wrPos + size v }, .bytes (encodeBytes v))) ∨
    (∃ v, r = varintWord v ∧ sinkRoom s < size v ∧
      (encCall r (sinkRoom s) s).encOut = .failed .io (size v) (Config.freeLanes s.tick) ∧
      encOp r s = (encCall r (sinkRoom s) s, .err .io)) ∨
    (2 ^ 62 ≤ r.toNat ∧
      (encCall r (sinkRoom s) s).encOut = .failed .range 0 (Config.freeLanes s.tick) ∧
      encOp r s = (encCall r (sinkRoom s) s, .err .range)) := by
  have hroom := toNat_len4 (sinkRoom_le s)
  rcases encEval_cases ⟨true, r, BitVec.ofNat 4 (sinkRoom s)⟩ (Config.freeLanes s.tick) with
    ⟨h, -⟩ | ⟨-, h, e⟩ | ⟨v, -, hw, h, e⟩ | ⟨v, -, hw, h, e⟩
  · simp at h
  · exact .inr (.inr ⟨h, e, takeEnc_failed e⟩)
  · exact .inr (.inl ⟨v, hw, by simpa [hroom] using h, e, takeEnc_failed e⟩)
  · have h8 : (encodeBytes v).length ≤ 8 := by
      have := size_cases v
      rw [encodeBytes_length]
      omega
    refine .inl ⟨v, hw, by simpa [hroom] using h, e, ?_⟩
    rw [encOp, takeEnc_done (s := encCall r (sinkRoom s) s) e h8, encodeBytes_length]
    rfl

theorem HarnessWrote.ofMemWrite {bs : List Byte} {s t : State} (hcap : t.cap = s.cap)
    (hbuf : t.buf = memWrite s.buf s.wrPos bs) (hwr : t.wrPos = s.wrPos + bs.length) (hrd : t.rdPos = s.rdPos)
    (hsc : t.script = s.script) : HarnessWrote bs s t where
  cap := hcap
  stored := fun k hk => by rw [hbuf, memWrite_get_in _ _ _ _ hk]
  others := fun a ha => by rw [hbuf, memWrite_get_other _ _ _ _ ha]
  wrPos := hwr
  rdPos := hrd
  script := hsc

theorem encOp_effect (r : Word64) (s : State) : Effect s (encOp r s).1 (encOp r s).2 := by
  rcases encOp_cases r s with ⟨v, hv, hroom, hout, e⟩ | ⟨v, hv, hroom, hout, e⟩ | ⟨hr, hout, e⟩
  · have hp := encCall_portsOk r (sinkRoom s) s
    have hfree := sinkRoom_le_free s
    have hsize := size_cases v
    rw [e]
    refine ⟨⟨hp.enc, hp.dec⟩, .wrote (encodeBytes v) ?_ ?_ rfl ?_, ?_, rfl⟩
    · rw [encodeBytes_length]; omega
    · rw [encodeBytes_length]; omega
    · exact .ofMemWrite rfl rfl (by simp) rfl rfl
    · intro h; simp [Result.isErr] at h
  · rw [e]; exact Effect.ofEncCall _ _ _ _
  · rw [e]; exact Effect.ofEncCall _ _ _ _

/-- A decoder call that was shown `real`, in its three cases. -/
theorem takeDec_cases (real : List Byte) (h8 : real.length ≤ 8) (s : State) :
    (real = [] ∧ takeDec (decCall (showBytes real s) s) = (decCall (showBytes real s) s, .err .io)) ∨
    (∃ b rest, real = b :: rest ∧ real.length < encodedSize b ∧
      takeDec (decCall (showBytes real s) s) = (decCall (showBytes real s) s, .err .io)) ∨
    (∃ b rest, real = b :: rest ∧ encodedSize b ≤ real.length ∧
      (decCall (showBytes real s) s).decOut
        = .done (BitVec.ofNat 64 (rawValue (real.take (encodedSize b)))) (encodedSize b) ∧
      takeDec (decCall (showBytes real s) s)
        = ({ decCall (showBytes real s) s with rdPos := s.rdPos + encodedSize b },
            .decoded (BitVec.ofNat 64 (rawValue (real.take (encodedSize b)))) (encodedSize b))) := by
  have h4 : (showBytes real s).avail.toNat = real.length := toNat_len4 h8
  rcases real with _ | ⟨b, rest⟩
  · exact .inl ⟨rfl, takeDec_failed ((decCall_decOut _ _).trans (decEval_empty _ _ rfl h4))⟩
  · have hb : (showBytes (b :: rest) s).lanes.b0 = b := rfl
    rcases Nat.lt_or_ge (b :: rest).length (encodedSize b) with h | h
    · have e := decEval_short (showBytes (b :: rest) s) (Config.freeValue s.tick) rfl
        (by rw [h4]; simp) (by rw [h4, hb]; exact h)
      exact .inr (.inl ⟨b, rest, rfl, h, takeDec_failed ((decCall_decOut _ _).trans e)⟩)
    · have e1 := decEval_ok (showBytes (b :: rest) s) (Config.freeValue s.tick) rfl (by rw [h4, hb]; exact h)
      have e2 : (showBytes (b :: rest) s).lanes.toList.take (encodedSize b) = (b :: rest).take (encodedSize b) :=
        take_fill_of_le _ _ h8 _ h
      rw [hb, e2] at e1
      have e := (decCall_decOut _ _).trans e1
      have hs := encodedSize_cases b
      refine .inr (.inr ⟨b, rest, rfl, h, e, ?_⟩)
      rw [takeDec_done e (by omega)]
      rfl

/-- The window a decoder call is shown has as many bytes as the harness says. -/
theorem nextBytes_length {n : Nat} {s : State} {real : List Byte} (h : nextBytes n s = .ok real) : real.length = n :=
  (memRead_inv _ _ _ _ _ h).1

/-- The bytes that are there are the bytes a read gives. -/
theorem nextBytes_window {s : State} {bs : List Byte} (h : Window s bs) : nextBytes (sourceAvail s) s = .ok bs := by
  rw [← h.1]
  exact memRead_ok _ _ _ _ h.2

theorem decOp_window {s : State} {bs : List Byte} (h : Window s bs) :
    decOp s = .ok (takeDec (decCall (showBytes bs s) s)) := by
  rw [decOp, nextBytes_window h]

/-- An ok decoder call moves the read position by the item's length, a failed one moves nothing. -/
theorem decOp_effect {s t : State} {r : Result} (h : decOp s = .ok (t, r)) :
    Effect s t r ∧ (r.isErr = false → ∃ n, 1 ≤ n ∧ n ≤ unreadCount s ∧ HarnessRead n s t) := by
  rw [decOp] at h
  rcases hr : nextBytes (sourceAvail s) s with f | real
  · simp [hr] at h
  · have hlen := nextBytes_length hr
    have h8 : real.length ≤ 8 := by rw [hlen]; exact sourceAvail_le s
    have hun := sourceAvail_le_unread s
    simp only [hr, Except.ok.injEq] at h
    have hp := decCall_portsOk (showBytes real s) s
    rcases takeDec_cases real h8 s with ⟨-, e⟩ | ⟨b, rest, -, -, e⟩ | ⟨b, rest, -, hle, -, e⟩
    · rw [e, Prod.mk.injEq] at h
      obtain ⟨rfl, rfl⟩ := h
      exact ⟨Effect.ofDecCall _ _ _, fun h => by simp [Result.isErr] at h⟩
    · rw [e, Prod.mk.injEq] at h
      obtain ⟨rfl, rfl⟩ := h
      exact ⟨Effect.ofDecCall _ _ _, fun h => by simp [Result.isErr] at h⟩
    · rw [e, Prod.mk.injEq] at h
      obtain ⟨rfl, rfl⟩ := h
      have hpos : 1 ≤ encodedSize b := by have := encodedSize_cases b; omega
      have hread : HarnessRead (encodedSize b) s
          { decCall (showBytes real s) s with rdPos := s.rdPos + encodedSize b } := ⟨rfl, rfl, rfl, rfl, rfl⟩
      refine ⟨⟨⟨hp.enc, hp.dec⟩, .read _ hpos (by omega) hread, ?_, rfl⟩, ?_⟩
      · intro h; simp [Result.isErr] at h
      · intro _; exact ⟨_, hpos, by omega, hread⟩

/-- A length read moves nothing. -/
theorem esizeOp_effect {s t : State} {r : Result} (h : esizeOp s = .ok (t, r)) :
    ∃ i, t = decCall i s := by
  rw [esizeOp] at h
  rcases hr : nextBytes (min 1 (unreadCount s)) s with f | real
  · simp [hr] at h
  · simp only [hr, Except.ok.injEq, readDecLen, Prod.mk.injEq] at h
    exact ⟨_, h.1.symm⟩

/-- The length that ESIZE records is a tier's length, read off the first unread byte. -/
theorem esizeOp_length {s t : State} {n : Nat} (h : esizeOp s = .ok (t, .length n)) :
    1 ≤ n ∧ ∃ b, s.buf.get s.rdPos = some b ∧ n = encodedSize b := by
  rw [esizeOp] at h
  rcases hr : nextBytes (min 1 (unreadCount s)) s with f | real
  · simp [hr] at h
  · obtain ⟨hlen, hget⟩ := memRead_inv _ _ _ _ _ hr
    simp only [hr, Except.ok.injEq, readDecLen, Prod.mk.injEq] at h
    rcases real with _ | ⟨b, _ | ⟨c, tl⟩⟩
    · have e := (decCall_decOut (showBytes [] s) s).trans (decEval_empty _ _ rfl rfl)
      rw [e] at h
      simp [DecOut.failed] at h
    · have hb : s.buf.get s.rdPos = some b := by
        have := hget 0 (by rw [← hlen]; simp)
        simpa using this
      have e : (decCall (showBytes [b] s) s).decOut.len = BitVec.ofNat 4 (encodedSize b) := by
        rcases decEval_cases (showBytes [b] s) (Config.freeValue s.tick) with
          ⟨h, -⟩ | ⟨-, h, -⟩ | ⟨-, -, -, e⟩ | ⟨-, -, e⟩
        · simp [showBytes] at h
        · simp [showBytes] at h
        · exact congrArg DecOut.len e
        · exact congrArg DecOut.len e
      have hnz : ¬ (BitVec.ofNat 4 (encodedSize b) = 0#4) := by
        rcases encodedSize_cases b with h | h | h | h <;> rw [h] <;> decide
      rw [e, if_neg hnz, toNat_encodedSize4] at h
      have hn : encodedSize b = n := by simpa using h.2
      have := encodedSize_cases b
      exact ⟨by omega, b, hb, hn.symm⟩
    · simp only [List.length_cons] at hlen
      omega

theorem skipOp_effect {s t : State} {r : Result} (h : skipOp s = .ok (t, r)) :
    Effect s t r ∧ (r.isErr = false → ∃ n, 1 ≤ n ∧ n ≤ unreadCount s ∧ HarnessRead n s t) := by
  rw [skipOp] at h
  rcases he : esizeOp s with f | ⟨u, q⟩
  · simp [he] at h
  · obtain ⟨i, rfl⟩ := esizeOp_effect he
    have hp := decCall_portsOk i s
    rcases q with bs | ⟨v, n⟩ | n | v | w | e
    case length =>
      obtain ⟨hpos, -⟩ := esizeOp_length he
      simp only [he] at h
      split_ifs at h with hle
      · simp only [Except.ok.injEq, Prod.mk.injEq] at h
        obtain ⟨rfl, rfl⟩ := h
        have hread : HarnessRead n s { decCall i s with rdPos := (decCall i s).rdPos + n } := ⟨rfl, rfl, rfl, rfl, rfl⟩
        refine ⟨⟨⟨hp.enc, hp.dec⟩, .read n hpos hle hread, ?_, rfl⟩, ?_⟩
        · intro h; simp [Result.isErr] at h
        · intro _; exact ⟨n, hpos, hle, hread⟩
      · simp only [Except.ok.injEq, Prod.mk.injEq] at h
        obtain ⟨rfl, rfl⟩ := h
        exact ⟨Effect.ofDecCall _ _ _, fun h => by simp [Result.isErr] at h⟩
    all_goals
      rw [esizeOp] at he
      rcases hr : nextBytes (min 1 (unreadCount s)) s with f | real
      · simp [hr] at he
      · simp only [hr, Except.ok.injEq, readDecLen, Prod.mk.injEq] at he
        have he2 := he.2
        split_ifs at he2
        try
          simp only [Result.err.injEq] at he2
          subst he2
          rename_i hq
          simp only [esizeOp, hr, readDecLen, if_pos hq, Except.ok.injEq, Prod.mk.injEq] at h
          obtain ⟨rfl, rfl⟩ := h
          exact ⟨Effect.ofDecCall _ _ _, fun h => by simp [Result.isErr] at h⟩

end Sys2Proof.Machine
end

