-- ==== Sys2Proof/Laws/PerInstr.lean ====
section
/-! SUPPORT. A statement for every row of the operation table, one lemma a constructor: the bytes of a row's encoding are
self-delimiting (30_encoding.md R48). -/

namespace Sys2Proof.Laws.WireLength

open Sys2Proof Sys2Proof.Machine

/-- Where a row has an encoding, its first byte tells how many bytes it has. -/
def Statement (i : Instr) : Prop :=
  ∀ bs, encode i = some bs → ∃ b rest, bs = b :: rest ∧ encodedSize b = bs.length

/-- A row whose bytes are an item's. -/
theorem of_item {i j : Instr} {cs : List Byte} {n : Nat} (h : encode i = some cs) (hj : IsItem j cs n) :
    Statement i := by
  intro bs hbs
  rw [h, Option.some.injEq] at hbs
  subst hbs
  exact hj.head

/-- A row that has no bytes. -/
theorem of_none {i : Instr} (h : encode i = none) : Statement i := by
  intro bs hbs
  rw [h] at hbs
  cases hbs

theorem decT1 (v : BitVec 6) : Statement (.decT1 v) := of_item rfl (.t1 v)
theorem decT2 (v : BitVec 14) : Statement (.decT2 v) := of_item rfl (.t2 v)
theorem decT4 (v : BitVec 30) : Statement (.decT4 v) := of_item rfl (.t4 v)
theorem decT8 (v : BitVec 62) : Statement (.decT8 v) := of_item rfl (.t8 v)
theorem encT1 (v : BitVec 6) : Statement (.encT1 v) := of_item rfl (.t1 v)
theorem encT2 (v : BitVec 14) : Statement (.encT2 v) := of_item rfl (.t2 v)
theorem encT4 (v : BitVec 30) : Statement (.encT4 v) := of_item rfl (.t4 v)
theorem encT8 (v : BitVec 62) : Statement (.encT8 v) := of_item rfl (.t8 v)
theorem encRange (r : Word64) : Statement (.encRange r) := of_none rfl
theorem enc (r : Word64) : Statement (.enc r) := of_none rfl
theorem dec : Statement .dec := of_none rfl
theorem size (r : Word64) : Statement (.size r) := of_none rfl
theorem encodedSize (b : Option Byte) : Statement (.encodedSize b) := of_none rfl
theorem fromU8 (b : BitVec 8) : Statement (.fromU8 b) := of_none rfl
theorem fromU16 (h : BitVec 16) : Statement (.fromU16 h) := of_none rfl
theorem fromU32 (w : BitVec 32) : Statement (.fromU32 w) := of_none rfl
theorem tryFromU64 (r : Word64) : Statement (.tryFromU64 r) := of_none rfl
theorem tryFromUsize (width : Nat) (w : Word64) : Statement (.tryFromUsize width w) := of_none rfl
theorem intoU64 (x : VarInt) : Statement (.intoU64 x) := of_none rfl

end Sys2Proof.Laws.WireLength
end

