-- ==== Sys2Proof/Laws/Rows.lean ====
section
/-! SUPPORT. What every operation can do: a row of the encoder's map is ENC of its value, and each operation that answers a
next state has an `Effect`; a legal harness stays legal under an `Effect` and gives every read a value. -/

namespace Sys2Proof.Machine

theorem setWidth62_toNat {n : Nat} (v : BitVec n) (h : n ≤ 62) : (v.setWidth 62).toNat = v.toNat := by
  rw [BitVec.toNat_setWidth]
  exact Nat.mod_eq_of_lt (lt_of_lt_of_le v.isLt (Nat.pow_le_pow_right (by norm_num) h))

theorem setWidth64_toNat {n : Nat} (v : BitVec n) (h : n ≤ 64) : (v.setWidth 64).toNat = v.toNat := by
  rw [BitVec.toNat_setWidth]
  exact Nat.mod_eq_of_lt (lt_of_lt_of_le v.isLt (Nat.pow_le_pow_right (by norm_num) h))

/-- An operand zero-extended to 64 bits is its VarInt on the value port (R64 to R66, R69). -/
theorem setWidth64_eq {n : Nat} (v : BitVec n) (h : n ≤ 62) : v.setWidth 64 = varintWord (v.setWidth 62) := by
  apply BitVec.eq_of_toNat_eq
  rw [varintWord_toNat, setWidth62_toNat v h, setWidth64_toNat v (by omega)]

theorem setWidth64_ofNat {n : Nat} (v : BitVec n) (h : n ≤ 64) : BitVec.ofNat 64 v.toNat = v.setWidth 64 := by
  apply BitVec.eq_of_toNat_eq
  rw [setWidth64_toNat v h, BitVec.toNat_ofNat]
  exact Nat.mod_eq_of_lt (lt_of_lt_of_le v.isLt (Nat.pow_le_pow_right (by norm_num) h))

/-- A row of the encoder's format map whose bytes are an item of the selected tier is `ENC` of its value. -/
theorem encRow_eq_encOp {n : Nat} (v : BitVec n) (hn : n ≤ 62) {i : Instr} {bs : List Byte}
    (hi : IsItem i bs v.toNat) (hs : size (v.setWidth 62) = bs.length) (s : State) :
    encRow (v.setWidth 64) bs s = encOp (v.setWidth 64) s := by
  rw [setWidth64_eq v hn, ← hi.encodeBytes (v.setWidth 62) (setWidth62_toNat v hn) hs, encRow_eq]

theorem execEncT1_eq (v : BitVec 6) (s : State) : execEncT1 v s = execEnc (v.setWidth 64) s := by
  have hv := v.isLt
  have hs : size (v.setWidth 62) = 1 := by
    rw [size, tierOf_t1 (by rw [setWidth62_toNat v (by norm_num)]; exact hv)]
    rfl
  rw [execEncT1, execEnc, encRow_eq_encOp v (by norm_num) (.t1 v) hs]

theorem execEncT2_eq (v : BitVec 14) (s : State) (h : 2 ^ 6 ≤ v.toNat) :
    execEncT2 v s = execEnc (v.setWidth 64) s := by
  have hv := v.isLt
  have e := setWidth62_toNat v (by norm_num)
  have hs : size (v.setWidth 62) = 2 := by
    rw [size, tierOf_t2 (by rw [e]; exact h) (by rw [e]; exact hv)]
    rfl
  have hw : (Instr.encT2 v).wf = true := by simpa [Instr.wf] using h
  rw [execEncT2, whenWf, if_pos hw, execEnc, encRow_eq_encOp v (by norm_num) (.t2 v) hs]

theorem execEncT4_eq (v : BitVec 30) (s : State) (h : 2 ^ 14 ≤ v.toNat) :
    execEncT4 v s = execEnc (v.setWidth 64) s := by
  have hv := v.isLt
  have e := setWidth62_toNat v (by norm_num)
  have hs : size (v.setWidth 62) = 4 := by
    rw [size, tierOf_t4 (by rw [e]; exact h) (by rw [e]; exact hv)]
    rfl
  have hw : (Instr.encT4 v).wf = true := by simpa [Instr.wf] using h
  rw [execEncT4, whenWf, if_pos hw, execEnc, encRow_eq_encOp v (by norm_num) (.t4 v) hs]

theorem execEncT8_eq (v : BitVec 62) (s : State) (h : 2 ^ 30 ≤ v.toNat) :
    execEncT8 v s = execEnc (v.setWidth 64) s := by
  have e := setWidth62_toNat v (by norm_num)
  have hs : size (v.setWidth 62) = 8 := by
    rw [size, tierOf_t8 (by rw [e]; exact h)]
    rfl
  have hw : (Instr.encT8 v).wf = true := by simpa [Instr.wf] using h
  rw [execEncT8, whenWf, if_pos hw, execEnc, encRow_eq_encOp v (by norm_num) (.t8 v) hs]

theorem execEncRange_eq (r : Word64) (s : State) (h : 2 ^ 62 ≤ r.toNat) : execEncRange r s = execEnc r s := by
  have hw : (Instr.encRange r).wf = true := by simpa [Instr.wf] using h
  have e := encEval_range ⟨true, r, BitVec.ofNat 4 (sinkRoom s)⟩ (Config.freeLanes s.tick) rfl h
  rw [execEncRange, whenWf, if_pos hw, execEnc, encOp, encCall, e]

/-- A row of group a answers what `DEC` answers, where the unread bytes are its item or a beginning of it. -/
theorem decItem_next {i : Instr} {bs : List Byte} {v : Nat} (hi : IsItem i bs v) {s t : State}
    (h : decItem bs (BitVec.ofNat 64 v) s = .next t) : execDec s = .next t := by
  rcases hr : nextBytes (sourceAvail s) s with f | real
  · simp [decItem, hr] at h
  · by_cases ha : real.take bs.length = bs.take real.length
    · rw [← decItem_eq hi s real hr ha, h]
    · simp [decItem, hr, ha] at h

/-- What a recorded operation left behind. -/
def Ran (s t : State) : Prop := ∃ u r, Effect s u r ∧ t = record (.one r) u

theorem execEnc_ran {r : Word64} {s t : State} (h : execEnc r s = .next t) : Ran s t := by
  simp only [execEnc, finish, Host.Outcome.next.injEq] at h
  exact ⟨_, _, encOp_effect r s, h.symm⟩

theorem execDec_ran {s t : State} (h : execDec s = .next t) : Ran s t := by
  rcases hd : decOp s with f | ⟨u, r⟩
  · simp [execDec, hd, finishOr] at h
  · simp only [execDec, hd, finishOr, finish, Host.Outcome.next.injEq] at h
    exact ⟨u, r, (decOp_effect hd).1, h.symm⟩

theorem whenWf_next {i : Instr} {a : Answer} {t : State} (h : whenWf i a = .next t) : i.wf = true ∧ a = .next t := by
  unfold whenWf at h
  split_ifs at h with hw
  exact ⟨hw, h⟩

/-- Everything `exec` can do when it answers a next state. -/
theorem exec_ran {i : Instr} {s t : State} (h : exec i s = .next t) : Ran s t := by
  cases i with
  | decT1 v =>
    have h' : decItem (w1 v) (v.setWidth 64) s = .next t := h
    rw [← setWidth64_ofNat v (by norm_num)] at h'
    exact execDec_ran (decItem_next (.t1 v) h')
  | decT2 v =>
    have h' : decItem (w2 v) (v.setWidth 64) s = .next t := h
    rw [← setWidth64_ofNat v (by norm_num)] at h'
    exact execDec_ran (decItem_next (.t2 v) h')
  | decT4 v =>
    have h' : decItem (w4 v) (v.setWidth 64) s = .next t := h
    rw [← setWidth64_ofNat v (by norm_num)] at h'
    exact execDec_ran (decItem_next (.t4 v) h')
  | decT8 v =>
    have h' : decItem (w8 v) (v.setWidth 64) s = .next t := h
    rw [← setWidth64_ofNat v (by norm_num)] at h'
    exact execDec_ran (decItem_next (.t8 v) h')
  | encT1 v => exact execEnc_ran ((execEncT1_eq v s).symm.trans h)
  | encT2 v =>
    have hw : 2 ^ 6 ≤ v.toNat := by simpa [Instr.wf] using (whenWf_next h).1
    exact execEnc_ran ((execEncT2_eq v s hw).symm.trans h)
  | encT4 v =>
    have hw : 2 ^ 14 ≤ v.toNat := by simpa [Instr.wf] using (whenWf_next h).1
    exact execEnc_ran ((execEncT4_eq v s hw).symm.trans h)
  | encT8 v =>
    have hw : 2 ^ 30 ≤ v.toNat := by simpa [Instr.wf] using (whenWf_next h).1
    exact execEnc_ran ((execEncT8_eq v s hw).symm.trans h)
  | encRange r =>
    have hw : 2 ^ 62 ≤ r.toNat := by simpa [Instr.wf] using (whenWf_next h).1
    exact execEnc_ran ((execEncRange_eq r s hw).symm.trans h)
  | enc r => exact execEnc_ran h
  | dec => exact execDec_ran h
  | size r =>
    have h' : finish (readEncLen (encCall r 8 s)) = .next t := h
    simp only [finish, Host.Outcome.next.injEq] at h'
    exact ⟨_, _, Effect.ofEncCall r 8 s _, h'.symm⟩
  | encodedSize b =>
    cases b with
    | some x =>
      have h' : finish (readDecLen (decCall (showBytes [x] s) s)) = .next t := h
      simp only [finish, Host.Outcome.next.injEq] at h'
      exact ⟨_, _, Effect.ofDecCall _ s _, h'.symm⟩
    | none =>
      have h' : finishOr (esizeOp s) = .next t := h
      rcases he : esizeOp s with f | ⟨u, r⟩
      · simp [he, finishOr] at h'
      · obtain ⟨j, hj⟩ := esizeOp_effect he
        subst hj
        simp only [he, finishOr, finish, Host.Outcome.next.injEq] at h'
        exact ⟨_, _, Effect.ofDecCall _ s _, h'.symm⟩
  | fromU8 b => exact ⟨_, _, Effect.ofEncCall _ 8 s _, (Host.Outcome.next.inj h).symm⟩
  | fromU16 b => exact ⟨_, _, Effect.ofEncCall _ 8 s _, (Host.Outcome.next.inj h).symm⟩
  | fromU32 b => exact ⟨_, _, Effect.ofEncCall _ 8 s _, (Host.Outcome.next.inj h).symm⟩
  | tryFromU64 r => exact ⟨_, _, Effect.ofEncCall _ 8 s _, (Host.Outcome.next.inj h).symm⟩
  | tryFromUsize width w =>
    exact ⟨_, _, Effect.ofEncCall _ 8 s _, (Host.Outcome.next.inj (whenWf_next h).2).symm⟩
  | intoU64 x => exact ⟨_, _, Effect.ofDecCall _ s _, (Host.Outcome.next.inj h).symm⟩

/-- An `Effect` keeps the harness legal. -/
theorem Effect.harnessOk {s t : State} {r : Result} (h : Effect s t r) (hs : HarnessOk s) : HarnessOk t := by
  rcases h.moved with hm | ⟨n, -, hle, hm⟩ | ⟨bs, -, hle, hbuf, hm⟩
  · exact ⟨by rw [hm.buf]; exact hs.canonical, by rw [hm.buf, hm.cap]; exact hs.bounded,
      by rw [hm.buf, hm.wrPos]; exact hs.streamWritten, by rw [hm.rdPos, hm.wrPos]; exact hs.rdLeWr,
      by rw [hm.wrPos, hm.cap]; exact hs.wrLeCap⟩
  · have h1 := hs.rdLeWr
    simp only [unreadCount] at hle
    exact ⟨by rw [hm.buf]; exact hs.canonical, by rw [hm.buf, hm.cap]; exact hs.bounded,
      by rw [hm.buf, hm.wrPos]; exact hs.streamWritten, by rw [hm.rdPos, hm.wrPos]; omega,
      by rw [hm.wrPos, hm.cap]; exact hs.wrLeCap⟩
  · have h1 := hs.rdLeWr
    have h2 := hs.wrLeCap
    refine ⟨by rw [hbuf]; exact memWrite_wf _ _ _ hs.canonical, ?_, ?_, by rw [hm.rdPos, hm.wrPos]; omega,
      by rw [hm.wrPos, hm.cap]; omega⟩
    · intro a b hab
      rw [hm.cap]
      rcases Nat.lt_or_ge a s.wrPos with ha | ha
      · omega
      · rcases Nat.lt_or_ge a (s.wrPos + bs.length) with ha' | ha'
        · omega
        · rw [hm.others a (.inr ha')] at hab
          exact hs.bounded a b hab
    · intro a ha
      rw [hm.wrPos] at ha
      rcases Nat.lt_or_ge a s.wrPos with ha' | ha'
      · rw [hm.others a (.inl ha')]
        exact hs.streamWritten a ha'
      · obtain ⟨k, rfl⟩ := Nat.exists_eq_add_of_le ha'
        rw [hm.stored k (by omega)]
        have : k < bs.length := by omega
        simp [this]

/-- Recording a result touches no invariant. -/
theorem HarnessOk.record {s : State} (h : HarnessOk s) (r : LineResult) : HarnessOk (record r s) :=
  ⟨h.canonical, h.bounded, h.streamWritten, h.rdLeWr, h.wrLeCap⟩

theorem PortsOk.record {s : State} (h : PortsOk s) (r : LineResult) : PortsOk (record r s) := ⟨h.enc, h.dec⟩

theorem HarnessOk.popLine {s : State} (h : HarnessOk s) : HarnessOk (popLine s) :=
  ⟨h.canonical, h.bounded, h.streamWritten, h.rdLeWr, h.wrLeCap⟩

/-- In a legal harness every unread byte has a value. -/
theorem HarnessOk.nextBytes {s : State} (h : HarnessOk s) {n : Nat} (hn : n ≤ unreadCount s) :
    ∃ bs, nextBytes n s = .ok bs := by
  apply memRead_total
  intro k hk
  simp only [unreadCount] at hn
  exact h.streamWritten _ (by omega)

theorem HarnessOk.decOp {s : State} (h : HarnessOk s) : ∃ t r, decOp s = .ok (t, r) := by
  obtain ⟨bs, hbs⟩ := h.nextBytes (sourceAvail_le_unread s)
  exact ⟨_, _, by rw [Machine.decOp, hbs]⟩

theorem HarnessOk.esizeOp {s : State} (h : HarnessOk s) : ∃ t r, esizeOp s = .ok (t, r) := by
  obtain ⟨bs, hbs⟩ := h.nextBytes (n := min 1 (unreadCount s)) (by omega)
  exact ⟨_, _, by rw [Machine.esizeOp, hbs]⟩

theorem HarnessOk.skipOp {s : State} (h : HarnessOk s) : ∃ t r, skipOp s = .ok (t, r) := by
  obtain ⟨t, r, e⟩ := h.esizeOp
  cases r <;> simp only [Machine.skipOp, e]
  case length n => split_ifs <;> exact ⟨_, _, rfl⟩
  all_goals exact ⟨_, _, rfl⟩

end Sys2Proof.Machine
end

