-- ==== Sys2Proof/Tests/Slice0.lean ====
section
/-! SUPPORT. Tests with results taken from spec/95_test_vectors.md (named S and V as there) or worked out by hand from
the rule a comment names, and for each statement with hypotheses a witness that meets them. -/

open Sys2Proof Sys2Proof.Machine

namespace Sys2Proof.Tests

/-! ### Helpers -/

/-- The state an answer goes on in. -/
def stateOf (a : Answer) : Option State :=
  match a with
  | .next t => some t
  | .fault _ => none
  | .refused _ => none

/-- The listing after a step. -/
def listing (a : Answer) : Option (List LineResult) := (stateOf a).map (·.results)

/-- The stream and its positions after a step. -/
def harness (a : Answer) : Option (Memory × Nat × Nat) := (stateOf a).map (fun t => (t.buf, t.wrPos, t.rdPos))

/-- The encoder's status and length outputs after a step. -/
def encStatus (a : Answer) : Option (Bool × BitVec 2 × BitVec 4) :=
  (stateOf a).map (fun t => (t.encOut.ok, t.encOut.err, t.encOut.len))

/-- The decoder's status and length outputs after a step. -/
def decStatus (a : Answer) : Option (Bool × BitVec 2 × BitVec 4) :=
  (stateOf a).map (fun t => (t.decOut.ok, t.decOut.err, t.decOut.len))

/-- Why an answer stops. -/
def refusal (a : Answer) : Option Refusal :=
  match a with
  | .next _ => none
  | .fault _ => none
  | .refused r => some r

/-- An empty stream with room for `n` bytes. -/
def sink (n : Nat) : State := State.start n [] []

/-- A stream of given bytes, none of them read. -/
def source (bs : List Byte) : State := State.start bs.length bs []

/-! ### WellFormed: an ill-formed term for each check -/

theorem test_wf_encT2 : (Instr.encT2 63).wf = false ∧ (Instr.encT2 64).wf = true := by decide
theorem test_wf_encT4 : (Instr.encT4 16383).wf = false ∧ (Instr.encT4 16384).wf = true := by decide
theorem test_wf_encT8 : (Instr.encT8 1073741823).wf = false ∧ (Instr.encT8 1073741824).wf = true := by decide
theorem test_wf_encRange :
    (Instr.encRange 4611686018427387903).wf = false ∧ (Instr.encRange 4611686018427387904).wf = true := by decide
theorem test_wf_tryFromUsize_width : (Instr.tryFromUsize 65 0).wf = false ∧ (Instr.tryFromUsize 64 0).wf = true := by
  decide
theorem test_wf_tryFromUsize_word :
    (Instr.tryFromUsize 16 65536).wf = false ∧ (Instr.tryFromUsize 16 65535).wf = true := by decide

/-! ### Decoding written-out words -/

/-- V-D2: `00_000111`. -/
theorem test_decode_decT1 : decode [0b00000111] = .ok (.decT1 7, []) := by decide
/-- V-D5, S4: `01_000001 00101100`, and what follows is left. -/
theorem test_decode_decT2 : decode [0b01000001, 0b00101100, 0xAA] = .ok (.decT2 300, [0xAA]) := by decide
/-- V-D10. -/
theorem test_decode_decT4 : decode [0b10011101, 0x7F, 0x3E, 0x7D] = .ok (.decT4 494878333, []) := by decide
/-- V-D13. -/
theorem test_decode_decT8 : decode [0b11000010, 0x19, 0x7C, 0x5E, 0xFF, 0x14, 0xE8, 0x8C]
    = .ok (.decT8 151288809941952652, []) := by decide
/-- V-D15: a non-minimal item keeps its own format. -/
theorem test_decode_nonminimal : decode [0x40, 0x25] = .ok (.decT2 37, []) := by decide
/-- V-DS1, V-DS5. -/
theorem test_decode_short :
    decode [] = .error .noFirstByte ∧ decode [0x80, 0x00, 0x40] = .error (.shortRead 4) := by decide
/-- The rows of group a do not overlap (R50): no byte meets two masks. -/
theorem test_wireRows_disjoint : wireRows.Pairwise (fun p q => p.pat &&& q.mask ≠ q.pat) := by decide
/-- V-E9, V-E12, V-E20: the bytes of the encoder's rows. -/
theorem test_encode_rows :
    encode (.encT1 7) = some [0x07] ∧ encode (.encT2 300) = some [0x41, 0x2C] ∧
    encode (.encT4 16384) = some [0x80, 0x00, 0x40, 0x00] ∧
    encode (.encT8 151288809941952652) = some [0xC2, 0x19, 0x7C, 0x5E, 0xFF, 0x14, 0xE8, 0x8C] := by decide
/-- V-C2, V-C3, V-C5, V-C6, V-C8, V-C9, V-C11, V-C12: the boundaries of the format map (R49). -/
theorem test_selectFormat_boundaries :
    selectFormat 63 = .encT1 63 ∧ selectFormat 64 = .encT2 64 ∧ selectFormat 16383 = .encT2 16383 ∧
    selectFormat 16384 = .encT4 16384 ∧ selectFormat 1073741823 = .encT4 1073741823 ∧
    selectFormat 1073741824 = .encT8 1073741824 ∧ selectFormat 0x3FFFFFFFFFFFFFFF = .encT8 0x3FFFFFFFFFFFFFFF ∧
    selectFormat 0x4000000000000000 = .encRange 0x4000000000000000 := by decide
/-- The table numbers the first byte lowest: the word 0x2C41 is the item `41 2C`. -/
theorem test_decodeTableWord : decodeTableWord 16 0x2C41 = some (.decT2 300) := by decide

/-! ### The encoder's operations -/

/-- V-E9 on an empty stream: two bytes, the write position moves to 2. -/
theorem test_enc : listing (exec (.enc 300) (sink 8)) = some [.one (.bytes [0x41, 0x2C])] ∧
    harness (exec (.enc 300) (sink 8)) = some ([(0, 0x41), (1, 0x2C)], 2, 0) := by decide
/-- Program 3, third line: Io with the length wanted, nothing moves. -/
theorem test_enc_io : encStatus (exec (.enc 16384) (sink 1)) = some (false, 2, 4) ∧
    harness (exec (.enc 16384) (sink 1)) = some ([], 0, 0) := by decide
/-- V-E5. -/
theorem test_encT1 : listing (exec (.encT1 63) (sink 1)) = some [.one (.bytes [0x3F])] := by decide
/-- V-I1. -/
theorem test_encT1_io : encStatus (exec (.encT1 7) (sink 0)) = some (false, 2, 1) := by decide
/-- V-E10. -/
theorem test_encT2 : listing (exec (.encT2 15293) (sink 2)) = some [.one (.bytes [0x7B, 0xBD])] := by decide
/-- V-I3. -/
theorem test_encT2_io : encStatus (exec (.encT2 300) (sink 1)) = some (false, 2, 2) := by decide
/-- V-E15. -/
theorem test_encT4 : listing (exec (.encT4 494878333) (sink 4)) = some [.one (.bytes [0x9D, 0x7F, 0x3E, 0x7D])] := by
  decide
/-- V-I5. -/
theorem test_encT4_io : encStatus (exec (.encT4 16384) (sink 3)) = some (false, 2, 4) := by decide
/-- V-E22. -/
theorem test_encT8 : listing (exec (.encT8 4611686018427387902) (sink 8))
    = some [.one (.bytes [0xFF, 0xFF, 0xFF, 0xFF, 0xFF, 0xFF, 0xFF, 0xFE])] := by decide
/-- V-I7. -/
theorem test_encT8_io : encStatus (exec (.encT8 1073741824) (sink 7)) = some (false, 2, 8) := by decide
/-- V-I10 and V-C13 (bit 63 alone): Range before Io, length 0. -/
theorem test_encRange : encStatus (exec (.encRange 0x4000000000000000) (sink 0)) = some (false, 1, 0) ∧
    encStatus (exec (.enc 0x8000000000000000) (sink 8)) = some (false, 1, 0) := by decide
/-- S8, and the line's Range (V-C12), on a stream without room. -/
theorem test_size : listing (exec (.size 16384) (sink 0)) = some [.one (.length 4)] ∧
    listing (exec (.size 0x4000000000000000) (sink 0)) = some [.one (.err .range)] := by decide

/-! ### The decoder's operations -/

/-- Program 2: the non-minimal item. -/
theorem test_dec : listing (exec .dec (source [0x40, 0x25, 0xC2, 0x19, 0x7C])) = some [.one (.decoded 37 2)] ∧
    (harness (exec .dec (source [0x40, 0x25, 0xC2, 0x19, 0x7C]))).map (·.2) = some (5, 2) := by decide
/-- V-DS6, and V-DS1. -/
theorem test_dec_io : decStatus (exec .dec (source [0xC2, 0x19, 0x7C])) = some (false, 2, 8) ∧
    decStatus (exec .dec (source [])) = some (false, 2, 0) := by decide
/-- V-D3: the second byte belongs to the next item. -/
theorem test_decT1 : listing (exec (.decT1 63) (source [0x3F, 0xFF])) = some [.one (.decoded 63 1)] := by decide
/-- V-D8. -/
theorem test_decT2 : listing (exec (.decT2 16383) (source [0x7F, 0xFF])) = some [.one (.decoded 16383 2)] := by decide
/-- Another item is unread (entry 12). -/
theorem test_decT2_other : refusal (exec (.decT2 300) (source [0x41, 0x2D])) = some .otherItem := by decide
/-- V-D11. -/
theorem test_decT4 : listing (exec (.decT4 1073741823) (source [0xBF, 0xFF, 0xFF, 0xFF, 0x00]))
    = some [.one (.decoded 1073741823 4)] := by decide
/-- V-DS5. -/
theorem test_decT4_io : decStatus (exec (.decT4 16384) (source [0x80, 0x00, 0x40])) = some (false, 2, 4) := by decide
/-- V-D14. -/
theorem test_decT8 :
    listing (exec (.decT8 4611686018427387903) (source [0xFF, 0xFF, 0xFF, 0xFF, 0xFF, 0xFF, 0xFF, 0xFF]))
      = some [.one (.decoded 4611686018427387903 8)] := by decide
/-- V-DS7. -/
theorem test_decT8_io :
    decStatus (exec (.decT8 4611686018427387903) (source [0xFF, 0xFF, 0xFF, 0xFF, 0xFF, 0xFF, 0xFF]))
      = some (false, 2, 8) := by decide
/-- V-ES5: `80` gives 4, not 3; and V-ES9 read from the stream, which stays. -/
theorem test_encodedSize : listing (exec (.encodedSize (some 0x80)) (sink 0)) = some [.one (.length 4)] ∧
    listing (exec (.encodedSize none) (source [0x41])) = some [.one (.length 2)] := by decide
/-- R52, R96: with no byte the line's result is Io. -/
theorem test_encodedSize_io : listing (exec (.encodedSize none) (sink 4)) = some [.one (.err .io)] := by decide

/-! ### The constructions -/

/-- V-C4. -/
theorem test_fromU8 : listing (exec (.fromU8 255) (sink 0)) = some [.one (.varint 255)] ∧
    encStatus (exec (.fromU8 255) (sink 0)) = some (true, 0, 2) := by decide
/-- V-C7. -/
theorem test_fromU16 : listing (exec (.fromU16 65535) (sink 0)) = some [.one (.varint 65535)] ∧
    encStatus (exec (.fromU16 65535) (sink 0)) = some (true, 0, 4) := by decide
/-- V-C10. -/
theorem test_fromU32 : listing (exec (.fromU32 4294967295) (sink 0)) = some [.one (.varint 4294967295)] ∧
    encStatus (exec (.fromU32 4294967295) (sink 0)) = some (true, 0, 8) := by decide
/-- S12 (V-C11). -/
theorem test_tryFromU64 : listing (exec (.tryFromU64 0x3FFFFFFFFFFFFFFF) (sink 0))
    = some [.one (.varint 4611686018427387903)] := by decide
/-- S11 (V-C12), V-C13. -/
theorem test_tryFromU64_range : listing (exec (.tryFromU64 0x4000000000000000) (sink 0)) = some [.one (.err .range)] ∧
    listing (exec (.tryFromU64 0x8000000000000000) (sink 0)) = some [.one (.err .range)] := by decide
/-- R67: the largest word of a 32-bit platform, and V-C14 on a 64-bit one. -/
theorem test_tryFromUsize : listing (exec (.tryFromUsize 32 4294967295) (sink 0)) = some [.one (.varint 4294967295)] ∧
    listing (exec (.tryFromUsize 64 0xFFFFFFFFFFFFFFFF) (sink 0)) = some [.one (.err .range)] := by decide
/-- R69: two zero bits on top. -/
theorem test_intoU64 : listing (exec (.intoU64 4611686018427387903) (sink 0))
    = some [.one (.word 0x3FFFFFFFFFFFFFFF)] := by decide

/-! ### The script -/

/-- Program 2, last line: 3 unread bytes are fewer than 8. -/
theorem test_skip_io : listing (step { source [0xC2, 0x19, 0x7C] with script := [.skip] })
    = some [.one (.err .io)] := by decide
/-- Program 4, step 5: over a 4-byte item by its length. -/
theorem test_skip : (harness (step { source [0x80, 0x00, 0x40, 0x00, 0xBF] with script := [.skip] })).map (·.2)
    = some (5, 4) := by decide
/-- Program 3, the last repetition: the loop ends with its list. -/
theorem test_untilEmpty : listing (step { source [0x00] with
      script := [.untilEmpty .dec [.decoded 63 1, .decoded 16383 2]] })
    = some [.many [.decoded 63 1, .decoded 16383 2, .decoded 0 1]] := by decide
/-- Program 1, the first repetition: bytes are left, so the line stays. -/
theorem test_untilEmpty_again : (stateOf (step { source [0x07, 0x41, 0x2C] with
      script := [.untilEmpty .dec []] })).map (·.script) = some [.untilEmpty .dec [.decoded 7 1]] := by decide
/-- The texts of the lines (R52). -/
theorem test_parseLine :
    parseLine "ENC 0x12C".toList = .ok (.op (.enc 300)) ∧ parseLine "SIZE 16384".toList = .ok (.op (.size 16384)) ∧
    parseLine "ESIZE".toList = .ok (.op (.encodedSize none)) ∧
    parseLine "UNTIL_EMPTY SKIP".toList = .ok (.untilEmpty .skip []) := by decide
/-- A number of 2^64 or more is none (R52). -/
theorem test_parseLine_bad : parseLine "ENC 18446744073709551616".toList = .error .numberTooLarge ∧
    parseLine "ENC 12C".toList = .error .notANumber ∧ parseLine "NOP".toList = .error .unknownLine := by decide
/-- The word of `DEC.T2` runs as the very next step from reset. -/
theorem test_withFetchWord : listing (step (State.reset.withFetchWord 16 0x2C41)) = some [.one (.decoded 300 2)] := by
  decide

/-! ### Witnesses: states and operands that meet a statement's hypotheses, clause by clause -/

/-- A stream of two bytes inside a buffer of 8, `rd` of them read, with a script. -/
def twoBytes (b0 b1 : Byte) (rd : Nat) (script : List Line) : State :=
  { State.start 8 [b0, b1] script with rdPos := rd }

theorem twoBytes_inv (b0 b1 : Byte) (rd : Nat) (script : List Line) (h : rd ≤ 2) : Inv (twoBytes b0 b1 rd script) := by
  refine ⟨⟨rfl, ?_, ?_, h, (by decide : 2 ≤ 8)⟩, ⟨⟨Config.freeLanes 0, rfl⟩, ⟨Config.freeValue 0, rfl⟩⟩⟩
  · intro a b h
    by_cases h0 : a = 0
    · subst h0; exact (by decide : 0 < 8)
    · by_cases h1 : a = 1
      · subst h1; exact (by decide : 1 < 8)
      · have : (twoBytes b0 b1 rd script).buf.get a = none := by
          show (if 0 = a then some b0 else if 1 = a then some b1 else none) = none
          rw [if_neg (Ne.symm h0), if_neg (Ne.symm h1)]
        rw [this] at h
        cases h
  · intro a h
    have h : a < 2 := h
    have : a = 0 ∨ a = 1 := by omega
    rcases this with rfl | rfl <;> rfl

/-- The stream `41 2C`, unread. -/
def legal (script : List Line) : State := twoBytes 0x41 0x2C 0 script

theorem legal_inv (script : List Line) : Inv (legal script) := twoBytes_inv _ _ _ _ (by decide)

theorem witness_SizeFollowsTheFourRanges :
    (63#62).toNat < 2 ^ 6 ∧ (2 ^ 6 ≤ (64#62).toNat ∧ (16383#62).toNat < 2 ^ 14) ∧
    (2 ^ 14 ≤ (16384#62).toNat ∧ (1073741823#62).toNat < 2 ^ 30) ∧ 2 ^ 30 ≤ (1073741824#62).toNat ∧
    2 ^ 62 ≤ (0x4000000000000000#64).toNat ∧ (63#62).toNat ≤ (64#62).toNat := by decide

theorem witness_SelectorPicksTheLeastTier :
    (64#62).extractLsb' 6 56 ≠ 0#56 ∧ (16384#62).extractLsb' 14 48 ≠ 0#48 ∧
    (1073741824#62).extractLsb' 30 32 ≠ 0#32 ∧ (63#62).toNat < 2 ^ (8 * 1 - 2) ∧
    (0x3FFFFFFFFFFFFFFF#62).toNat < 2 ^ (8 * 8 - 2) := by decide

theorem witness_SinkErrorTellsTheWantedLength :
    (7#4).toNat < size 1073741824 ∧ size 1073741824 ≤ (8#4).toNat ∧ 8 ≤ (15#4).toNat ∧ (0#4 : BitVec 4) = 0#4 := by
  decide

theorem witness_EncodingsAreCanonical :
    (encEval ⟨true, 16384, 4⟩ Lanes.zero).ok = true ∧ (encEval ⟨true, 63, 1⟩ Lanes.zero).ok = true := by decide

theorem witness_EncoderDrivesTheLanesOfEachTier :
    ((63#64).toNat < 2 ^ 6 ∧ 1 ≤ (1#4).toNat) ∧
    (2 ^ 6 ≤ (64#64).toNat ∧ (64#64).toNat < 2 ^ 14 ∧ 2 ≤ (2#4).toNat) ∧
    (2 ^ 14 ≤ (16384#64).toNat ∧ (16384#64).toNat < 2 ^ 30 ∧ 4 ≤ (4#4).toNat) ∧
    (2 ^ 30 ≤ (1073741824#64).toNat ∧ (1073741824#64).toNat < 2 ^ 62 ∧ 8 ≤ (8#4).toNat) := by decide

theorem witness_EncodingsArePrefixFree : encodeBytes 300 ++ [0x07] = encodeBytes 300 ++ [0x07] ∧
    encodeBytes 300 ≠ [] := by decide

theorem witness_EncodingsKeepTheOrder : (63#62).toNat < (64#62).toNat ∧ (0#62).toNat < (1#62).toNat := by decide

theorem witness_EncodedSizeOfEveryFirstByte :
    (0x3F#8).toNat < 0x40 ∧ (0x40 ≤ (0x40#8).toNat ∧ (0x7F#8).toNat < 0x80) ∧
    (0x80 ≤ (0x80#8).toNat ∧ (0xBF#8).toNat < 0xC0) ∧ 0xC0 ≤ (0xC0#8).toNat ∧ 1 ≤ (1#4).toNat := by decide

theorem witness_DecoderReportsShortReads :
    (0#4).toNat = 0 ∧ (1 ≤ (7#4).toNat ∧ (7#4).toNat < encodedSize 0xFF) ∧ encodedSize 0xFF ≤ (8#4).toNat := by decide

theorem witness_DecoderAssemblesEachTier :
    ((0x3F#8).toNat < 0x40 ∧ 1 ≤ (1#4).toNat) ∧
    (0x40 ≤ (0x7F#8).toNat ∧ (0x7F#8).toNat < 0x80 ∧ 2 ≤ (2#4).toNat) ∧
    (0x80 ≤ (0xBF#8).toNat ∧ (0xBF#8).toNat < 0xC0 ∧ 4 ≤ (4#4).toNat) ∧
    (0xC0 ≤ (0xC0#8).toNat ∧ 8 ≤ (8#4).toNat) := by decide

theorem witness_DecoderReadsItsOwnLanesOnly :
    (Lanes.fill [0x41, 0x2C] Lanes.zero).toList.take (2#4).toNat
      = (Lanes.fill [0x41, 0x2C, 0xFF] Lanes.zero).toList.take (2#4).toNat ∧
    encodedSize (Lanes.fill [0x41, 0x2C] Lanes.zero).b0 ≤ (2#4).toNat ∧
    encodedSize (Lanes.fill [0x41, 0x2C] Lanes.zero).b0 ≤ (8#4).toNat ∧
    (Lanes.fill [0x41, 0x2C] Lanes.zero).b0 = (Lanes.fill [0x41, 0xFF] Lanes.zero).b0 ∧
    1 ≤ (1#4).toNat ∧ (1#4).toNat < encodedSize (Lanes.fill [0x41, 0x2C] Lanes.zero).b0 := by decide

theorem witness_DecodedValueFitsItsTier :
    (decEval ⟨true, Lanes.fill [0x7F, 0xFF] Lanes.zero, 2⟩ 0).ok = true := by decide

theorem witness_NonMinimalEncodingsDecode :
    (63#62).toNat < 2 ^ 6 ∧ (16383#62).toNat < 2 ^ 14 ∧ (1073741823#62).toNat < 2 ^ 30 := by decide

theorem witness_StatusOutputsAgree :
    (EncIn.mk false 7 8).valid = false ∧ (EncIn.mk true 7 8).valid = true ∧
    (DecIn.mk false Lanes.zero 8).valid = false ∧ (DecIn.mk true Lanes.zero 8).valid = true := by decide

theorem witness_CountsAbove8ActAs8 : 8 ≤ (8#4).toNat ∧ 8 ≤ (15#4).toNat := by decide

theorem witness_BusPutsLaneZeroOnTop : 0 < 8 ∧ 7 < 8 := by decide

theorem witness_RoundTripThroughThePorts :
    (encEval ⟨true, 300, 2⟩ Lanes.zero).ok = true ∧ (encEval ⟨true, 300, 2⟩ Lanes.zero).len.toNat ≤ (2#4).toNat ∧
    (Lanes.fill [0x41, 0x2C, 0xFF] Lanes.zero).toList.take (encEval ⟨true, 300, 2⟩ Lanes.zero).len.toNat
      = (encEval ⟨true, 300, 2⟩ Lanes.zero).lanes.toList.take (encEval ⟨true, 300, 2⟩ Lanes.zero).len.toNat := by
  decide

/-- A non-minimal window and a canonical one. -/
theorem witness_DecodeThenEncodeIsCanonical :
    (decEval ⟨true, Lanes.fill [0x40, 0x25] Lanes.zero, 2⟩ 0).ok = true ∧
    (decEval ⟨true, Lanes.fill [0x25] Lanes.zero, 1⟩ 0).ok = true := by decide

theorem witness_DecodeFailsOnlyOnShortInput :
    ([0x00, 0x40] : List Byte).length + 1 < encodedSize 0x80 ∧
    encodedSize 0x80 ≤ ([0x00, 0x40, 0x00] : List Byte).length + 1 := by decide

theorem witness_FormatMapFollowsTheTable :
    (0x8000000000000000#64).extractLsb' 62 2 ≠ 0#2 ∧ (63#64).extractLsb' 6 58 = 0#58 ∧
    ((64#64).extractLsb' 6 58 ≠ 0#58 ∧ (64#64).extractLsb' 14 50 = 0#50) ∧
    ((16384#64).extractLsb' 14 50 ≠ 0#50 ∧ (16384#64).extractLsb' 30 34 = 0#34) ∧
    ((1073741824#64).extractLsb' 30 34 ≠ 0#34 ∧ (1073741824#64).extractLsb' 62 2 = 0#2) := by decide

theorem witness_EncWritesTheEncoding :
    size 300 ≤ (sink 2).cap - (sink 2).wrPos ∧ size 1073741824 ≤ (sink 9).cap - (sink 9).wrPos := by decide

theorem witness_FailedEncChangesNothing :
    (sink 7).cap - (sink 7).wrPos < size 1073741824 ∧ 2 ^ 62 ≤ (0x4000000000000000#64).toNat := by decide

theorem witness_EncRowsWriteTheirFormats :
    1 ≤ (sink 1).cap - (sink 1).wrPos ∧
    (2 ^ 6 ≤ (64#14).toNat ∧ 2 ≤ (sink 2).cap - (sink 2).wrPos) ∧
    (2 ^ 14 ≤ (16384#30).toNat ∧ 4 ≤ (sink 4).cap - (sink 4).wrPos) ∧
    (2 ^ 30 ≤ (1073741824#62).toNat ∧ 8 ≤ (sink 8).cap - (sink 8).wrPos) := by decide

theorem witness_EncRowsWithoutRoomReportIo :
    (sink 0).cap - (sink 0).wrPos < 1 ∧
    (2 ^ 6 ≤ (64#14).toNat ∧ (sink 1).cap - (sink 1).wrPos < 2) ∧
    (2 ^ 14 ≤ (16384#30).toNat ∧ (sink 3).cap - (sink 3).wrPos < 4) ∧
    (2 ^ 30 ≤ (1073741824#62).toNat ∧ (sink 7).cap - (sink 7).wrPos < 8) := by decide

theorem witness_EncRangeRowReportsRange : 2 ^ 62 ≤ (0x4000000000000000#64).toNat := by decide

theorem witness_OperandsOutsideTheirRowAreRefused :
    (63#14).toNat < 2 ^ 6 ∧ (16383#30).toNat < 2 ^ 14 ∧ (1073741823#62).toNat < 2 ^ 30 ∧
    (0x3FFFFFFFFFFFFFFF#64).toNat < 2 ^ 62 ∧ (64 < 65 ∨ 2 ^ 65 ≤ (0#64).toNat) ∧
    (64 < 16 ∨ 2 ^ 16 ≤ (65536#64).toNat) := by decide

theorem witness_SizeLineReadsTheLength : 2 ^ 62 ≤ (0xFFFFFFFFFFFFFFFF#64).toNat := by decide

theorem witness_DecReadsTheNextItem :
    (Window (source [0x41, 0x2C, 0x07]) [0x41, 0x2C, 0x07] ∧ encodedSize 0x41 ≤ ([0x2C, 0x07] : List Byte).length + 1) ∧
    (Window (source [0x07]) [0x07] ∧ encodedSize 0x07 ≤ ([] : List Byte).length + 1) := by
  unfold Window
  decide

theorem witness_FailedDecChangesNothing :
    (source []).wrPos ≤ (source []).rdPos ∧
    (Window (source [0x80, 0x00, 0x40]) [0x80, 0x00, 0x40] ∧ ([0x00, 0x40] : List Byte).length + 1 < encodedSize 0x80) := by
  unfold Window
  decide

theorem witness_DecRowsReadTheirItems :
    Window (source [0x3F, 0xFF]) (w1 63 ++ [0xFF]) ∧ Window (source [0x41, 0x2C]) (w2 300 ++ []) ∧
    Window (source [0x80, 0x00, 0x40, 0x00, 0x07]) (w4 16384 ++ [0x07]) ∧
    Window (source [0xC0, 0x00, 0x00, 0x00, 0x40, 0x00, 0x00, 0x00, 0x07]) (w8 1073741824 ++ []) := by
  unfold Window
  decide

theorem witness_DecRowsOnATruncatedItemReportIo :
    (encode (.decT2 300) = some [0x41, 0x2C] ∧ [0x41] <+: ([0x41, 0x2C] : List Byte) ∧
      ([0x41] : List Byte).length < ([0x41, 0x2C] : List Byte).length ∧ Window (source [0x41]) [0x41]) ∧
    (encode (.decT1 7) = some [0x07] ∧ [] <+: ([0x07] : List Byte) ∧ Window (source []) []) := by
  unfold Window
  decide

theorem witness_DecRowsRefuseAnotherItem :
    encode (.decT2 300) = some [0x41, 0x2C] ∧ Window (source [0x41, 0x2D]) [0x41, 0x2D] ∧
    ¬ ([0x41, 0x2C] : List Byte) <+: [0x41, 0x2D] ∧ ¬ ([0x41, 0x2D] : List Byte) <+: [0x41, 0x2C] := by
  unfold Window
  decide

theorem witness_DecIsTheRowOfTheUnreadItem :
    Window (source [0x40, 0x25, 0xC2]) [0x40, 0x25, 0xC2] ∧ decode [0x40, 0x25, 0xC2] = .ok (.decT2 37, [0xC2]) := by
  unfold Window
  decide

theorem witness_EncodedSizeReadsTheTag :
    ((source [0x9D]).rdPos < (source [0x9D]).wrPos ∧ (source [0x9D]).buf.get (source [0x9D]).rdPos = some 0x9D) ∧
    (source []).wrPos ≤ (source []).rdPos := by decide

theorem witness_TryFromU64NeverTruncates :
    (0x3FFFFFFFFFFFFFFF#64).toNat < 2 ^ 62 ∧ 2 ^ 62 ≤ (0x4000000000000000#64).toNat := by decide

theorem witness_TryFromUsizeIsTryFromU64 :
    (64 ≤ 64 ∧ (0xFFFFFFFFFFFFFFFF#64).toNat < 2 ^ 64) ∧ (62 ≤ 64 ∧ (0x3FFFFFFFFFFFFFFF#64).toNat < 2 ^ 62) ∧
    (16 ≤ 62 ∧ (65535#64).toNat < 2 ^ 16) := by decide

theorem witness_IntoU64IsLossless : (0x3FFFFFFFFFFFFFFF#64).toNat < 2 ^ 62 := by decide

theorem witness_StepRunsTheNextLine :
    (legal [.op (.enc 7)]).script = [.op (.enc 7)] ∧ (legal [.skip, .op .dec]).script = [.skip, .op .dec] ∧
    (legal [.untilEmpty .skip [.length 2]]).script = [.untilEmpty .skip [.length 2]] := ⟨rfl, rfl, rfl⟩

theorem witness_StepRunsTheDecodedItem :
    (legal [.op .dec]).script = [.op .dec] ∧ Window (legal [.op .dec]) [0x41, 0x2C] ∧
    decode [0x41, 0x2C] = .ok (.decT2 300, []) := by
  unfold Window
  decide

theorem witness_NoLineMeansNoCall : (legal []).script = [] := rfl

theorem witness_SkipStepsOverAnItem :
    ((legal [.skip]).buf.get (legal [.skip]).rdPos = some 0x41 ∧
      encodedSize 0x41 ≤ (legal [.skip]).wrPos - (legal [.skip]).rdPos) ∧
    ((State.start 1 [0x41] [.skip]).rdPos < (State.start 1 [0x41] [.skip]).wrPos ∧
      (State.start 1 [0x41] [.skip]).buf.get (State.start 1 [0x41] [.skip]).rdPos = some 0x41 ∧
      (State.start 1 [0x41] [.skip]).wrPos - (State.start 1 [0x41] [.skip]).rdPos < encodedSize 0x41) ∧
    (State.start 1 [] [.skip]).wrPos ≤ (State.start 1 [] [.skip]).rdPos := by decide

/-- Nothing unread; an item that is the last; an item with a byte after it; a byte that demands one more than there is,
for both lines. -/
theorem witness_UntilEmptyRepeatsItsLine :
    ((twoBytes 0x41 0x2C 2 [.untilEmpty .dec []]).script = [.untilEmpty .dec []] ∧
      (twoBytes 0x41 0x2C 2 [.untilEmpty .dec []]).wrPos ≤ (twoBytes 0x41 0x2C 2 [.untilEmpty .dec []]).rdPos) ∧
    (∀ k, Inv (legal [.untilEmpty k []]) ∧ (legal [.untilEmpty k []]).script = [.untilEmpty k []] ∧
      (legal [.untilEmpty k []]).rdPos < (legal [.untilEmpty k []]).wrPos) ∧
    (∀ k, Inv (twoBytes 0x07 0x41 0 [.untilEmpty k []]) ∧
      (twoBytes 0x07 0x41 0 [.untilEmpty k []]).rdPos < (twoBytes 0x07 0x41 0 [.untilEmpty k []]).wrPos) ∧
    (∀ k, Inv (twoBytes 0x07 0x41 1 [.untilEmpty k []]) ∧
      (twoBytes 0x07 0x41 1 [.untilEmpty k []]).rdPos < (twoBytes 0x07 0x41 1 [.untilEmpty k []]).wrPos ∧
      (twoBytes 0x07 0x41 1 [.untilEmpty k []]).wrPos - (twoBytes 0x07 0x41 1 [.untilEmpty k []]).rdPos
        < encodedSize 0x41) :=
  ⟨⟨rfl, (by decide : 2 ≤ 2)⟩,
    fun _ => ⟨legal_inv _, rfl, (by decide : 0 < 2)⟩,
    fun _ => ⟨twoBytes_inv _ _ _ _ (by decide), (by decide : 0 < 2)⟩,
    fun _ => ⟨twoBytes_inv _ _ _ _ (by decide), (by decide : 1 < 2), (by decide : 2 - 1 < encodedSize 0x41)⟩⟩

/-- The last byte before the write and the first after it. -/
theorem witness_ReadAfterWrite : (2 + 2 ≤ 4 ∨ 4 + ([0x41, 0x2C] : List Byte).length ≤ 2) ∧
    (6 + 1 ≤ 4 ∨ 4 + ([0x41, 0x2C] : List Byte).length ≤ 6) := by decide

/-- The two cells written in either order. -/
theorem witness_BuffersThatReadAlikeAreEqual :
    Memory.wf (memWrite [] 0 [0x41, 0x2C]) = true ∧ Memory.wf (memWrite (memWrite [] 1 [0x2C]) 0 [0x41]) = true ∧
    ∀ a, (memWrite [] 0 [0x41, 0x2C]).get a = (memWrite (memWrite [] 1 [0x2C]) 0 [0x41]).get a :=
  ⟨by decide, by decide, fun _ => rfl⟩

theorem witness_DecReadsBackWhatEncWrote :
    (sink 4).rdPos = (sink 4).wrPos ∧ size 16384 ≤ (sink 4).cap - (sink 4).wrPos := by decide

theorem witness_FailedOperationsChangeNothing :
    ∃ t, exec (.encRange 0x4000000000000000) (sink 8) = .next t ∧ Logged (.err .range) (sink 8) t := ⟨_, rfl, rfl⟩

theorem witness_TheStreamIsAppendOnly : ∃ t, exec (.encT1 7) (legal []) = .next t ∧ 1 < (legal []).wrPos ∧
    writesStream (.size 7) = false ∧ consumesStream (.encT1 7) = false := ⟨_, rfl, by decide, rfl, rfl⟩

theorem witness_StartStatesAreLegal : ([0x41, 0x2C] : List Byte).length ≤ 2 := by decide

theorem witness_StepKeepsTheInvariant : Inv (legal [.op .dec]) ∧ ∃ t, step (legal [.op .dec]) = .next t :=
  ⟨legal_inv _, _, rfl⟩

theorem witness_LegalHarnessNeverFaults : Inv (legal [.op .dec]) := legal_inv _

theorem witness_ScriptLinesAlwaysRun :
    Inv (legal [.skip]) ∧ (legal [.skip]).script = [.skip] ∧ Line.skip.inScript = true := ⟨legal_inv _, rfl, rfl⟩

theorem witness_EveryScriptEnds :
    Inv (legal [.untilEmpty .skip [], .op (.enc 7)]) ∧
    ∀ l ∈ (legal [.untilEmpty .skip [], .op (.enc 7)]).script, l.inScript = true :=
  ⟨legal_inv _, by decide⟩

end Sys2Proof.Tests
end

/-! The step: what each line can do to a legal harness. -/

namespace Sys2Proof.Machine

/-! ### What a line of the script can do -/

/-- An operation that answered a next state ran to its end, and its result was recorded. -/
theorem finishOr_next {p : Except Fault (State × Result)} {t : State} (h : finishOr p = .next t) :
    ∃ u r, p = .ok (u, r) ∧ t = record (.one r) u := by
  rcases p with f | ⟨u, r⟩
  · cases h
  · exact ⟨u, r, rfl, (Host.Outcome.next.inj h).symm⟩

theorem runSkip_ran {s t : State} (h : runSkip s = .next t) : Ran s t := by
  obtain ⟨u, r, hop, ht⟩ := finishOr_next h
  exact ⟨u, r, (skipOp_effect hop).1, ht⟩

theorem loopBody_effect {k : LoopOp} {s t : State} {r : Result} (h : loopBody k s = .ok (t, r)) : Effect s t r := by
  cases k with
  | dec => exact (decOp_effect h).1
  | skip => exact (skipOp_effect h).1

/-- One step of `UNTIL_EMPTY`: the list ends without a call; or one repetition is performed, and the list ends or the line
goes back to the script. -/
theorem runLoop_next {k : LoopOp} {sofar : List Result} {s t : State} (h : runLoop k sofar s = .next t) :
    t = record (.many sofar) (noCall s) ∨
    ∃ u r, Effect s u r ∧
      (t = record (.many (sofar ++ [r])) u ∨ t = { u with script := .untilEmpty k (sofar ++ [r]) :: u.script }) := by
  rw [runLoop] at h
  split_ifs at h with hempty
  · exact .inl (Host.Outcome.next.inj h).symm
  · rcases hbody : loopBody k s with f | ⟨u, r⟩
    · simp [hbody] at h
    · simp only [hbody] at h
      refine .inr ⟨u, r, loopBody_effect hbody, ?_⟩
      split_ifs at h with hend
      · exact .inl (Host.Outcome.next.inj h).symm
      · exact .inr (Host.Outcome.next.inj h).symm

/-! ### The invariant -/

theorem Inv.record {s : State} (h : Inv s) (r : LineResult) : Inv (record r s) :=
  ⟨h.harness.record r, h.ports.record r⟩

theorem Inv.setScript {s : State} (h : Inv s) (ls : List Line) : Inv { s with script := ls } :=
  ⟨⟨h.harness.canonical, h.harness.bounded, h.harness.streamWritten, h.harness.rdLeWr, h.harness.wrLeCap⟩,
    ⟨h.ports.enc, h.ports.dec⟩⟩

theorem HarnessOk.noCall_inv {s : State} (h : HarnessOk s) : Inv (noCall s) :=
  ⟨⟨h.canonical, h.bounded, h.streamWritten, h.rdLeWr, h.wrLeCap⟩, noCall_portsOk s⟩

/-- The ports are those of the operation's own evaluation, so nothing is asked of the ports before it. -/
theorem Effect.inv {s t : State} {r : Result} (h : Effect s t r) (hs : HarnessOk s) : Inv t :=
  ⟨h.harnessOk hs, h.ports⟩

theorem Ran.inv {s t : State} (h : Ran s t) (hs : HarnessOk s) : Inv t := by
  obtain ⟨u, r, hu, rfl⟩ := h
  exact (hu.inv hs).record _

theorem runLoop_inv {k : LoopOp} {sofar : List Result} {s t : State} (hs : HarnessOk s)
    (h : runLoop k sofar s = .next t) : Inv t := by
  rcases runLoop_next h with rfl | ⟨u, r, hu, rfl | rfl⟩
  · exact hs.noCall_inv.record _
  · exact (hu.inv hs).record _
  · exact (hu.inv hs).setScript _

theorem runLine_inv {l : Line} {s t : State} (hs : HarnessOk s) (h : runLine l s = .next t) : Inv t := by
  cases l with
  | op i => exact (exec_ran h).inv hs
  | skip => exact (runSkip_ran h).inv hs
  | untilEmpty k sofar => exact runLoop_inv hs h

/-- A step is the idle evaluation where no line is left, and otherwise the next line, taken off the script (R36). -/
theorem step_of_script_nil {s : State} (h : s.script = []) : step s = .next (noCall s) := by
  simp only [step, h]

theorem step_of_script_cons {s : State} {l : Line} {ls : List Line} (h : s.script = l :: ls) :
    step s = runLine l (popLine s) := by
  simp only [step, h]

/-- Settles O57: every line keeps the harness legal and drives the ports anew. -/
theorem stepKeepsTheInvariant : Obligations.StepKeepsTheInvariant := by
  intro s t hs h
  rcases hscript : s.script with _ | ⟨l, ls⟩
  · rw [step_of_script_nil hscript] at h
    cases h
    exact hs.harness.noCall_inv
  · rw [step_of_script_cons hscript] at h
    exact runLine_inv hs.harness.popLine h

/-- Settles O47: such a step is the evaluation with neither module called. -/
theorem noLineMeansNoCall : Obligations.NoLineMeansNoCall := by
  intro s hscript
  exact ⟨noCall s, step_of_script_nil hscript, ⟨rfl, rfl, rfl, rfl⟩, ⟨rfl, rfl, rfl, rfl⟩, noCall_same s, rfl⟩

/-! ### A legal harness never faults -/

/-- An answer that is no fault. -/
def NoFault (a : Answer) : Prop := ∀ f, a ≠ .fault f

theorem noFault_next (t : State) : NoFault (.next t) := by
  intro f h
  cases h

theorem noFault_refused (r : Refusal) : NoFault (.refused r) := by
  intro f h
  cases h

theorem noFault_finish (p : State × Result) : NoFault (finish p) := noFault_next _

theorem NoFault.whenWf {a : Answer} (h : NoFault a) (i : Instr) : NoFault (whenWf i a) := by
  unfold Machine.whenWf
  split_ifs
  · exact h
  · exact noFault_refused _

theorem noFault_finishOr {p : Except Fault (State × Result)} (h : ∃ t r, p = .ok (t, r)) : NoFault (finishOr p) := by
  obtain ⟨t, r, rfl⟩ := h
  exact noFault_finish _

/-- A wire row reads its window, which has a value for every byte. -/
theorem HarnessOk.decItem_noFault {s : State} (h : HarnessOk s) (bs : List Byte) (w : Word64) :
    NoFault (decItem bs w s) := by
  obtain ⟨real, hreal⟩ := h.nextBytes (sourceAvail_le_unread s)
  simp only [decItem, hreal]
  split_ifs
  · exact noFault_finish _
  · exact noFault_refused _

theorem HarnessOk.exec_noFault {s : State} (h : HarnessOk s) (i : Instr) : NoFault (exec i s) := by
  cases i with
  | decT1 v => exact h.decItem_noFault (w1 v) _
  | decT2 v => exact h.decItem_noFault (w2 v) _
  | decT4 v => exact h.decItem_noFault (w4 v) _
  | decT8 v => exact h.decItem_noFault (w8 v) _
  | encT1 v => exact noFault_finish _
  | encT2 v => exact (noFault_finish _).whenWf _
  | encT4 v => exact (noFault_finish _).whenWf _
  | encT8 v => exact (noFault_finish _).whenWf _
  | encRange r => exact (noFault_finish _).whenWf _
  | enc r => exact noFault_finish _
  | dec => exact noFault_finishOr h.decOp
  | size r => exact noFault_finish _
  | encodedSize b =>
    cases b with
    | none => exact noFault_finishOr h.esizeOp
    | some x => exact noFault_finish _
  | fromU8 b => exact noFault_finish _
  | fromU16 b => exact noFault_finish _
  | fromU32 b => exact noFault_finish _
  | tryFromU64 r => exact noFault_finish _
  | tryFromUsize width w => exact (noFault_finish _).whenWf _
  | intoU64 x => exact noFault_finish _

theorem HarnessOk.loopBody {s : State} (h : HarnessOk s) (k : LoopOp) : ∃ t r, loopBody k s = .ok (t, r) := by
  cases k with
  | dec => exact h.decOp
  | skip => exact h.skipOp

theorem HarnessOk.runLoop_noFault {s : State} (h : HarnessOk s) (k : LoopOp) (sofar : List Result) :
    NoFault (runLoop k sofar s) := by
  obtain ⟨t, r, hbody⟩ := h.loopBody k
  simp only [runLoop, hbody]
  split_ifs <;> exact noFault_next _

theorem HarnessOk.runLine_noFault {s : State} (h : HarnessOk s) (l : Line) : NoFault (runLine l s) := by
  cases l with
  | op i => exact h.exec_noFault i
  | skip => exact noFault_finishOr h.skipOp
  | untilEmpty k sofar => exact h.runLoop_noFault k sofar

/-- Settles O58: every line reads unread bytes of the stream only, and these have values. -/
theorem legalHarnessNeverFaults : Obligations.LegalHarnessNeverFaults := by
  intro s f hs
  rcases hscript : s.script with _ | ⟨l, ls⟩
  · rw [step_of_script_nil hscript]
    exact noFault_next _ f
  · rw [step_of_script_cons hscript]
    exact hs.harness.popLine.runLine_noFault l f

/-! ### Start states -/

theorem reset_inv : Inv State.reset where
  harness :=
    ⟨rfl, fun _ _ (h : none = some _) => (nomatch h), fun _ h => absurd h (Nat.not_lt_zero _), le_rfl, Nat.zero_le _⟩
  ports := ⟨⟨Config.freeLanes 0, rfl⟩, ⟨Config.freeValue 0, rfl⟩⟩

/-- The bytes a test puts in the stream stand from index 0 on, and nothing else has a value. -/
theorem memWrite_nil_get (bs : List Byte) (a : Nat) : (memWrite [] 0 bs).get a = bs[a]? := by
  rcases Nat.lt_or_ge a bs.length with h | h
  · simpa using memWrite_get_in bs [] 0 a h
  · rw [memWrite_get_other bs [] 0 a (.inr (by omega)), List.getElem?_eq_none h]
    rfl

theorem start_inv {cap : Nat} {stream : List Byte} (h : stream.length ≤ cap) (script : List Line) :
    Inv (State.start cap stream script) := by
  refine ⟨⟨memWrite_wf stream [] 0 rfl, ?_, ?_, Nat.zero_le _, h⟩, ⟨reset_inv.ports.enc, reset_inv.ports.dec⟩⟩
  · intro a b hab
    obtain ⟨ha, -⟩ := List.getElem?_eq_some_iff.mp ((memWrite_nil_get stream a).symm.trans hab)
    exact lt_of_lt_of_le ha h
  · intro a ha
    have ha : a < stream.length := ha
    rw [State.start, memWrite_nil_get]
    simp [ha]

/-- Settles O56: at reset the buffer is empty, and a start state holds exactly the stream's bytes. -/
theorem startStatesAreLegal : Obligations.StartStatesAreLegal :=
  ⟨reset_inv, fun _ _ script h => start_inv h script⟩

/-- Settles O55: each value is the one `State.reset` gives its port. -/
theorem resetMakesNoCall : Obligations.ResetMakesNoCall :=
  ⟨rfl, rfl, ⟨rfl, rfl, rfl⟩, ⟨rfl, rfl, rfl⟩, rfl, rfl, fun _ => rfl⟩

/-! ### The buffer in canonical form -/

/-- The indices rise strictly, so a buffer has no value below its first index. -/
theorem Memory.get_below_head {a : Nat} {b : Byte} {m : Memory} :
    ∀ {k}, Memory.wf ((a, b) :: m) = true → k < a → Memory.get ((a, b) :: m) k = none := by
  induction m generalizing a b with
  | nil =>
    intro k _ hk
    simp [Memory.get, Nat.ne_of_gt hk]
  | cons c rest ih =>
    intro k hwf hk
    obtain ⟨hhead, hrest⟩ := (Memory.wf_cons a b _).mp hwf
    have hc : a < c.1 := hhead c rfl
    rw [Memory.get, if_neg (Nat.ne_of_gt hk)]
    exact ih hrest (hk.trans hc)

/-- Behind its first cell a buffer has no value at or below the index of that cell. -/
theorem Memory.get_tail_at_head {a : Nat} {b : Byte} {m : Memory} {k : Nat}
    (h : Memory.wf ((a, b) :: m) = true) (hk : k ≤ a) : m.get k = none := by
  obtain ⟨hhead, htail⟩ := (Memory.wf_cons a b m).mp h
  cases m with
  | nil => rfl
  | cons c rest => exact Memory.get_below_head htail (lt_of_le_of_lt hk (hhead c rfl))

/-- The first index of a canonical buffer is the least one that has a value. -/
theorem Memory.head_le {a c : Nat} {b d : Byte} {m n : Memory} (hn : Memory.wf ((c, d) :: n) = true)
    (h : ∀ k, Memory.get ((a, b) :: m) k = Memory.get ((c, d) :: n) k) : c ≤ a := by
  by_contra hlt
  have hval := h a
  rw [Memory.get_below_head hn (by omega)] at hval
  simp [Memory.get] at hval

/-- Canonical buffers with the same value at every index are the same list. -/
theorem Memory.ext_get {m n : Memory} (hm : m.wf = true) (hn : n.wf = true) (h : ∀ a, m.get a = n.get a) : m = n := by
  induction m generalizing n with
  | nil =>
    cases n with
    | nil => rfl
    | cons c rest => simpa [Memory.get] using h c.1
  | cons c rest ih =>
    obtain ⟨a, b⟩ := c
    cases n with
    | nil => simpa [Memory.get] using h a
    | cons d rest' =>
      obtain ⟨a', b'⟩ := d
      obtain rfl : a = a' := le_antisymm (Memory.head_le hm fun k => (h k).symm) (Memory.head_le hn h)
      have hb : b = b' := by simpa [Memory.get] using h a
      have htail : ∀ k, Memory.get rest k = Memory.get rest' k := by
        intro k
        by_cases hk : a = k
        · rw [Memory.get_tail_at_head hm hk.ge, Memory.get_tail_at_head hn hk.ge]
        · simpa [Memory.get, hk] using h k
      rw [hb, ih ((Memory.wf_cons _ _ _).mp hm).2 ((Memory.wf_cons _ _ _).mp hn).2 htail]

/-- Settles O51: the first index of a canonical buffer is determined by what it reads as, and so is the rest. -/
theorem buffersThatReadAlikeAreEqual : Obligations.BuffersThatReadAlikeAreEqual :=
  fun m _ hm hn h => ⟨Memory.ext_get hm hn h, fun a bs => memWrite_wf bs m a hm⟩

/-! ### What an operation leaves alone -/

/-- The wire rows consume what DEC consumes: where one answers, DEC answers the same. -/
theorem exec_consumer {i : Instr} {s t : State} (hi : consumesStream i = true) (h : exec i s = .next t) :
    execDec s = .next t := by
  cases i with
  | dec => exact h
  | decT1 v => exact decItem_next (.t1 v) (by rw [setWidth64_ofNat v (by norm_num)]; exact h)
  | decT2 v => exact decItem_next (.t2 v) (by rw [setWidth64_ofNat v (by norm_num)]; exact h)
  | decT4 v => exact decItem_next (.t4 v) (by rw [setWidth64_ofNat v (by norm_num)]; exact h)
  | decT8 v => exact decItem_next (.t8 v) (by rw [setWidth64_ofNat v (by norm_num)]; exact h)
  | _ => cases hi

/-- The rows of the format map write what ENC of their value writes. -/
theorem exec_writer {i : Instr} {s t : State} (hi : writesStream i = true) (h : exec i s = .next t) :
    ∃ r, execEnc r s = .next t := by
  cases i with
  | enc r => exact ⟨r, h⟩
  | encT1 v => exact ⟨_, (execEncT1_eq v s).symm.trans h⟩
  | encT2 v => exact ⟨_, (execEncT2_eq v s (by simpa [Instr.wf] using (whenWf_next h).1)).symm.trans h⟩
  | encT4 v => exact ⟨_, (execEncT4_eq v s (by simpa [Instr.wf] using (whenWf_next h).1)).symm.trans h⟩
  | encT8 v => exact ⟨_, (execEncT8_eq v s (by simpa [Instr.wf] using (whenWf_next h).1)).symm.trans h⟩
  | _ => cases hi

theorem HarnessSame.record {s t : State} (h : HarnessSame s t) (r : LineResult) : HarnessSame s (record r t) :=
  ⟨h.cap, h.buf, h.wrPos, h.rdPos, h.script⟩

/-- A row that only evaluates a module, or that its range check fails, moves nothing. -/
theorem exec_other {i : Instr} {s t : State} (hw : writesStream i = false) (hc : consumesStream i = false)
    (h : exec i s = .next t) : HarnessSame s t := by
  have evaluated : ∀ {ei eo di d r}, finish (setPorts ei eo di d s, r) = .next t → HarnessSame s t := by
    intro ei eo di d r h
    obtain rfl := Host.Outcome.next.inj h
    exact (setPorts_same ei eo di d s).record _
  cases i with
  | encRange r =>
    have h := (whenWf_next h).2
    rw [takeEnc_failed rfl] at h
    exact evaluated h
  | size r => exact evaluated h
  | encodedSize b =>
    cases b with
    | some x => exact evaluated h
    | none =>
      obtain ⟨u, r, hop, rfl⟩ := finishOr_next h
      obtain ⟨j, rfl⟩ := esizeOp_effect hop
      exact (decCall_same j s).record _
  | fromU8 b => exact evaluated h
  | fromU16 b => exact evaluated h
  | fromU32 b => exact evaluated h
  | tryFromU64 r => exact evaluated h
  | tryFromUsize width w => exact evaluated (whenWf_next h).2
  | intoU64 x => exact evaluated h
  | _ => cases hw <;> cases hc

/-- DEC reads, if it moves anything. -/
theorem execDec_moved {s t : State} (h : execDec s = .next t) : ∃ n, HarnessRead n s t := by
  obtain ⟨u, r, hop, rfl⟩ := finishOr_next h
  obtain ⟨heff, hread⟩ := decOp_effect hop
  cases hr : r.isErr with
  | true =>
    have hsame := (heff.failed hr).record (.one r)
    exact ⟨0, hsame.cap, hsame.buf, hsame.wrPos, hsame.rdPos, hsame.script⟩
  | false =>
    obtain ⟨n, -, -, hn⟩ := hread hr
    exact ⟨n, hn.cap, hn.buf, hn.wrPos, hn.rdPos, hn.script⟩

/-- ENC moves no read position. -/
theorem execEnc_rdPos {r : Word64} {s t : State} (h : execEnc r s = .next t) : t.rdPos = s.rdPos := by
  obtain rfl := Host.Outcome.next.inj h
  rcases encOp_cases r s with ⟨v, -, -, -, e⟩ | ⟨v, -, -, -, e⟩ | ⟨-, -, e⟩ <;> rw [e] <;> rfl

/-- Only ENC and its rows change the buffer or the write position. -/
theorem exec_keeps_stream {i : Instr} {s t : State} (hw : writesStream i = false) (h : exec i s = .next t) :
    t.buf = s.buf ∧ t.wrPos = s.wrPos := by
  cases hc : consumesStream i with
  | true =>
    obtain ⟨n, hread⟩ := execDec_moved (exec_consumer hc h)
    exact ⟨hread.buf, hread.wrPos⟩
  | false =>
    have hsame := exec_other hw hc h
    exact ⟨hsame.buf, hsame.wrPos⟩

/-- Only DEC and its rows move the read position. -/
theorem exec_keeps_rdPos {i : Instr} {s t : State} (hc : consumesStream i = false) (h : exec i s = .next t) :
    t.rdPos = s.rdPos := by
  cases hw : writesStream i with
  | true =>
    obtain ⟨r, henc⟩ := exec_writer hw h
    exact execEnc_rdPos henc
  | false => exact (exec_other hw hc h).rdPos

/-- The harness only grows: no position falls and no byte below the write position changes. -/
structure HarnessGrew (s t : State) : Prop where
  cap : t.cap = s.cap
  script : t.script = s.script
  wrPos : s.wrPos ≤ t.wrPos
  rdPos : s.rdPos ≤ t.rdPos
  kept : ∀ a, a < s.wrPos → t.buf.get a = s.buf.get a

theorem Moved.grew {s t : State} (h : Moved s t) : HarnessGrew s t := by
  rcases h with hm | ⟨n, -, -, hm⟩ | ⟨bs, -, -, -, hm⟩
  · exact ⟨hm.cap, hm.script, hm.wrPos.ge, hm.rdPos.ge, fun a _ => by rw [hm.buf]⟩
  · exact ⟨hm.cap, hm.script, hm.wrPos.ge, by rw [hm.rdPos]; omega, fun a _ => by rw [hm.buf]⟩
  · exact ⟨hm.cap, hm.script, by rw [hm.wrPos]; omega, hm.rdPos.ge, fun a ha => hm.others a (.inl ha)⟩

/-- Settles O54: the harness grew, and a row that is no encoder call, or no decoder call, left that side alone. -/
theorem theStreamIsAppendOnly : Obligations.TheStreamIsAppendOnly := by
  intro i s t h
  obtain ⟨u, r, heff, rfl⟩ := exec_ran h
  obtain ⟨hcap, hscript, hwr, hrd, hkept⟩ := heff.moved.grew
  have hlogged : Logged r s (record (.one r) u) := by
    rw [Logged, record_results, heff.results]
  exact ⟨hcap, hscript, hwr, hrd, hkept, fun hw => exec_keeps_stream hw h, fun hc => exec_keeps_rdPos hc h, r, hlogged⟩

/-- Settles O53: the result that was recorded is the operation's own, and a failed operation moves nothing. -/
theorem failedOperationsChangeNothing : Obligations.FailedOperationsChangeNothing := by
  intro i s t e h hlogged
  obtain ⟨u, r, heff, rfl⟩ := exec_ran h
  have hr : r = .err e := by
    rw [Logged, record_results, heff.results] at hlogged
    simpa using hlogged
  exact (heff.failed (by rw [hr]; rfl)).record _

end Sys2Proof.Machine

/-! The two modules as functions of their ports, and the calls of the harness on them. -/

namespace Sys2Proof.Machine

/-! ### Status outputs and counts -/

/-- What the unspecified pins carry does not reach the encoder's status outputs. -/
theorem encEval_status_free (i : EncIn) (free free' : Lanes) :
    (encEval i free).ok = (encEval i free').ok ∧ (encEval i free).err = (encEval i free').err := by
  unfold encEval
  split
  · split
    · exact ⟨rfl, rfl⟩
    · split <;> exact ⟨rfl, rfl⟩
  · exact ⟨rfl, rfl⟩

theorem decEval_status_free (i : DecIn) (free free' : Word64) :
    (decEval i free).ok = (decEval i free').ok ∧ (decEval i free).err = (decEval i free').err := by
  rcases decEval_cases i free with ⟨hv, e⟩ | ⟨hv, h0, e⟩ | ⟨hv, h0, h, e⟩ | ⟨hv, h, e⟩
  · rw [e, decEval_idle i free' hv]; exact ⟨rfl, rfl⟩
  · rw [e, decEval_empty i free' hv h0]; exact ⟨rfl, rfl⟩
  · rw [e, decEval_short i free' hv h0 h]; exact ⟨rfl, rfl⟩
  · rw [e, decEval_ok i free' hv h]; exact ⟨rfl, rfl⟩

/-- The rules of R17 for one module's status outputs. -/
def StatusAgrees (valid ok : Bool) (err : BitVec 2) : Prop :=
  (valid = false → ok = false ∧ err = 0#2) ∧ (valid = true → (ok = true ↔ err = 0#2)) ∧ err ≠ 3#2

theorem statusAgrees_idle : StatusAgrees false false 0#2 := by
  unfold StatusAgrees; decide

theorem statusAgrees_failed (e : ErrKind) : StatusAgrees true false e.code := by
  unfold StatusAgrees; cases e <;> decide

theorem statusAgrees_done : StatusAgrees true true 0#2 := by
  unfold StatusAgrees; decide

theorem encEval_statusAgrees (i : EncIn) (free : Lanes) :
    StatusAgrees i.valid (encEval i free).ok (encEval i free).err := by
  rcases encEval_cases i free with ⟨hv, e⟩ | ⟨hv, -, e⟩ | ⟨v, hv, -, -, e⟩ | ⟨v, hv, -, -, e⟩ <;> rw [hv, e]
  · exact statusAgrees_idle
  · exact statusAgrees_failed .range
  · exact statusAgrees_failed .io
  · exact statusAgrees_done

theorem decEval_statusAgrees (i : DecIn) (free : Word64) :
    StatusAgrees i.valid (decEval i free).ok (decEval i free).err := by
  rcases decEval_cases i free with ⟨hv, e⟩ | ⟨hv, -, e⟩ | ⟨hv, -, -, e⟩ | ⟨hv, -, e⟩ <;> rw [hv, e]
  · exact statusAgrees_idle
  · exact statusAgrees_failed .io
  · exact statusAgrees_failed .io
  · exact statusAgrees_done

/-- Settles O16: each case of R12 and R15 drives one of the three status patterns. -/
theorem statusOutputsAgree : Obligations.StatusOutputsAgree :=
  ⟨fun i free free' => ⟨encEval_status_free i free free', encEval_statusAgrees i free⟩,
    fun i free free' => ⟨decEval_status_free i free free', decEval_statusAgrees i free⟩⟩

/-- No encoding is longer than 8 bytes, so every room from there on is enough. -/
theorem encEval_room_ge (r : Word64) {a : BitVec 4} (free : Lanes) (h : 8 ≤ a.toNat) :
    encEval ⟨true, r, a⟩ free = encEval ⟨true, r, 8#4⟩ free := by
  rcases encEval_cases ⟨true, r, a⟩ free with ⟨hv, -⟩ | ⟨hv, hr, e⟩ | ⟨v, -, -, hroom, -⟩ | ⟨v, hv, hw, -, e⟩
  · cases hv
  · rw [e, encEval_range ⟨true, r, 8#4⟩ free hv hr]
  · have := size_cases v
    have hroom : a.toNat < size v := hroom
    omega
  · have hsize : size v ≤ (8#4).toNat := by
      have := size_cases v
      simp only [BitVec.toNat_ofNat]
      omega
    rw [e, encEval_ok ⟨true, r, 8#4⟩ free v hv hw hsize]

theorem decEval_avail_ge (l : Lanes) {a : BitVec 4} (free : Word64) (h : 8 ≤ a.toNat) :
    decEval ⟨true, l, a⟩ free = decEval ⟨true, l, 8#4⟩ free := by
  have hsize := encodedSize_cases l.b0
  have ha : encodedSize l.b0 ≤ a.toNat := by omega
  have h8 : encodedSize l.b0 ≤ (8#4).toNat := by
    simp only [BitVec.toNat_ofNat]
    omega
  rw [decEval_ok ⟨true, l, a⟩ free rfl ha, decEval_ok ⟨true, l, 8#4⟩ free rfl h8]

/-- Settles O17: no item is longer than 8 bytes, so counts from 8 on suffice alike. -/
theorem countsAbove8ActAs8 : Obligations.CountsAbove8ActAs8 :=
  ⟨fun r _ free h => encEval_room_ge r free h, fun l _ free h => decEval_avail_ge l free h,
    fun s => ⟨sinkRoom_le s, sourceAvail_le s⟩⟩

/-! ### The lanes -/

theorem bus_toNat (l : Lanes) : l.bus.toNat = fromBe l.toList := by
  simp only [Lanes.bus, toNat_append_add, Lanes.toList, fromBe, List.length]
  omega

/-- Settles O18: the bus is the big-endian number of the lanes, and each slice is read off that number. -/
theorem busPutsLaneZeroOnTop : Obligations.BusPutsLaneZeroOnTop := by
  intro l
  have hbus := bus_toNat l
  simp only [Lanes.toList, fromBe, List.length] at hbus
  have h0 := l.b0.isLt
  have h1 := l.b1.isLt
  have h2 := l.b2.isLt
  have h3 := l.b3.isLt
  have h4 := l.b4.isLt
  have h5 := l.b5.isLt
  have h6 := l.b6.isLt
  have h7 := l.b7.isLt
  refine ⟨?_, bus_toNat l, ?_⟩
  · intro k hk
    interval_cases k <;>
    · refine congrArg some (BitVec.eq_of_toNat_eq ?_)
      rw [toNat_slice]
      omega
  · apply BitVec.eq_of_toNat_eq
    rw [toNat_slice, toNat_slice]
    omega

theorem toNat_low {w : Nat} {x : BitVec w} {n : Nat} (h : x.toNat < 2 ^ n) : (x.extractLsb' 0 n).toNat = x.toNat := by
  rw [toNat_slice, Nat.pow_zero, Nat.div_one, Nat.mod_eq_of_lt h]

theorem size_t1 {v : VarInt} (h : v.toNat < 2 ^ 6) : size v = 1 := by
  rw [size, tierOf_t1 h]
  rfl

theorem size_t2 {v : VarInt} (h : 2 ^ 6 ≤ v.toNat) (h' : v.toNat < 2 ^ 14) : size v = 2 := by
  rw [size, tierOf_t2 h h']
  rfl

theorem size_t4 {v : VarInt} (h : 2 ^ 14 ≤ v.toNat) (h' : v.toNat < 2 ^ 30) : size v = 4 := by
  rw [size, tierOf_t4 h h']
  rfl

theorem size_t8 {v : VarInt} (h : 2 ^ 30 ≤ v.toNat) : size v = 8 := by
  rw [size, tierOf_t8 h]
  rfl

/-- An encoder call whose value has the item `bs` of the selected tier puts that item on the lanes. -/
theorem encEval_item {r : Word64} {room : BitVec 4} {i : Instr} {bs : List Byte} {m : Nat} (free : Lanes)
    (hi : IsItem i bs m) (hm : m = r.toNat) (hr : r.toNat < 2 ^ 62) (hs : size (r.extractLsb' 0 62) = bs.length)
    (hroom : bs.length ≤ room.toNat) : encEval ⟨true, r, room⟩ free = .done bs := by
  rw [encEval_ok ⟨true, r, room⟩ free (r.extractLsb' 0 62) rfl (eq_varintWord hr) (by rw [hs]; exact hroom),
    hi.encodeBytes _ ((toNat_low62 hr).trans hm.symm) hs]

/-- Settles O6: in each range the selected item is the one whose fields are the slices of the raw value. -/
theorem encoderDrivesTheLanesOfEachTier : Obligations.EncoderDrivesTheLanesOfEachTier := by
  intro r room free
  refine ⟨?_, ?_, ?_, ?_⟩
  · intro hlt hroom
    have h62 : r.toNat < 2 ^ 62 := by omega
    rw [encEval_item free (.t1 (r.extractLsb' 0 6)) (toNat_low hlt) h62
      (size_t1 (by rwa [toNat_low62 h62])) hroom]
    rfl
  · intro hge hlt hroom
    have h62 : r.toNat < 2 ^ 62 := by omega
    rw [encEval_item free (.t2 (r.extractLsb' 0 14)) (toNat_low hlt) h62
      (size_t2 (by rwa [toNat_low62 h62]) (by rwa [toNat_low62 h62])) hroom]
    simp [EncOut.done, Lanes.fill, Lanes.zero, w2]
  · intro hge hlt hroom
    have h62 : r.toNat < 2 ^ 62 := by omega
    rw [encEval_item free (.t4 (r.extractLsb' 0 30)) (toNat_low hlt) h62
      (size_t4 (by rwa [toNat_low62 h62]) (by rwa [toNat_low62 h62])) hroom]
    simp [EncOut.done, Lanes.fill, Lanes.zero, w4]
  · intro hge hlt hroom
    rw [encEval_item free (.t8 (r.extractLsb' 0 62)) (toNat_low hlt) hlt
      (size_t8 (by rwa [toNat_low62 hlt])) hroom]
    simp [EncOut.done, Lanes.fill, Lanes.zero, w8]

/-! ### The lanes the decoder reads -/

theorem b0_eq_of_take {l m : Lanes} {n : Nat} (hn : 1 ≤ n) (h : l.toList.take n = m.toList.take n) : l.b0 = m.b0 := by
  obtain ⟨k, rfl⟩ := Nat.exists_eq_add_of_le' hn
  exact (List.cons.inj h).1

/-- A short read looks at lane 0 only. -/
theorem decEval_short_congr {l m : Lanes} {a : BitVec 4} (free : Word64) (h : l.b0 = m.b0) (h1 : 1 ≤ a.toNat)
    (hlt : a.toNat < encodedSize l.b0) : decEval ⟨true, l, a⟩ free = decEval ⟨true, m, a⟩ free := by
  have h0 : a.toNat ≠ 0 := by omega
  rw [decEval_short ⟨true, l, a⟩ free rfl h0 hlt, decEval_short ⟨true, m, a⟩ free rfl h0 (h ▸ hlt)]
  simp only [h]

/-- An ok read looks at the lanes of the item only, and at no count that suffices. -/
theorem decEval_ok_congr {l m : Lanes} {a b : BitVec 4} (free : Word64)
    (h : l.toList.take (encodedSize l.b0) = m.toList.take (encodedSize l.b0)) (ha : encodedSize l.b0 ≤ a.toNat)
    (hb : encodedSize l.b0 ≤ b.toNat) : decEval ⟨true, l, a⟩ free = decEval ⟨true, m, b⟩ free := by
  have h0 : l.b0 = m.b0 := b0_eq_of_take (by have := encodedSize_cases l.b0; omega) h
  rw [decEval_ok ⟨true, l, a⟩ free rfl ha, decEval_ok ⟨true, m, b⟩ free rfl (h0 ▸ hb)]
  simp only [h, ← h0]

/-- Windows that agree below the count answer alike: no byte, a short read, or an item. -/
theorem decEval_avail_congr {l m : Lanes} {a : BitVec 4} (free : Word64)
    (h : l.toList.take a.toNat = m.toList.take a.toNat) :
    decEval ⟨true, l, a⟩ free = decEval ⟨true, m, a⟩ free := by
  rcases Nat.eq_zero_or_pos a.toNat with h0 | h1
  · rw [decEval_empty ⟨true, l, a⟩ free rfl h0, decEval_empty ⟨true, m, a⟩ free rfl h0]
  · rcases Nat.lt_or_ge a.toNat (encodedSize l.b0) with hlt | hge
    · exact decEval_short_congr free (b0_eq_of_take h1 h) h1 hlt
    · have htake := congrArg (List.take (encodedSize l.b0)) h
      rw [List.take_take, List.take_take, Nat.min_eq_left hge] at htake
      exact decEval_ok_congr free htake hge hge

/-- Settles O13: the outputs are functions of lane 0 and, on an ok call, of the item's own lanes. -/
theorem decoderReadsItsOwnLanesOnly : Obligations.DecoderReadsItsOwnLanesOnly :=
  fun _ _ _ _ free => ⟨decEval_avail_congr free, decEval_ok_congr free, decEval_short_congr free⟩

end Sys2Proof.Machine

/-! The calls of the harness: what ENC, DEC and their rows show, drive, move and record. -/

namespace Sys2Proof.Machine

/-! ### Encoder calls -/

/-- ENC of `r` answers `t`: the call shown, the outputs `o`, the result `res`, the decoder not called. -/
structure EncAnswers (r : Word64) (o : EncOut) (res : Result) (s t : State) : Prop where
  runs : execEnc r s = .next t
  shown : EncShown r (min 8 (s.cap - s.wrPos)) t
  out : t.encOut = o
  off : DecoderOff s t
  logged : Logged res s t

theorem varintWord_injective {u v : VarInt} (h : varintWord u = varintWord v) : u = v := by
  simpa using congrArg toVarInt h

/-- The room that is presented is enough exactly when the room there is would be. -/
theorem size_le_sinkRoom {v : VarInt} {s : State} : size v ≤ sinkRoom s ↔ size v ≤ s.cap - s.wrPos := by
  have := size_cases v
  simp only [sinkRoom]
  omega

theorem execEnc_ok {s : State} {v : VarInt} (h : size v ≤ s.cap - s.wrPos) :
    ∃ t, EncAnswers (varintWord v) (.done (encodeBytes v)) (.bytes (encodeBytes v)) s t ∧
      HarnessWrote (encodeBytes v) s t := by
  rcases encOp_cases (varintWord v) s with ⟨u, hu, -, hout, e⟩ | ⟨u, hu, hlt, -, -⟩ | ⟨hge, -, -⟩
  · obtain rfl := varintWord_injective hu
    refine ⟨_, ⟨congrArg finish e, rfl, hout, ⟨rfl, rfl, rfl, rfl⟩, rfl⟩, ?_⟩
    exact .ofMemWrite rfl rfl (by simp) rfl rfl
  · obtain rfl := varintWord_injective hu
    have := size_le_sinkRoom.mpr h
    omega
  · have := v.isLt
    rw [varintWord_toNat] at hge
    omega

theorem execEnc_io {s : State} {v : VarInt} (h : s.cap - s.wrPos < size v) :
    ∃ t, EncAnswers (varintWord v) (.failed .io (size v) (Config.freeLanes s.tick)) (.err .io) s t ∧
      HarnessSame s t := by
  rcases encOp_cases (varintWord v) s with ⟨u, hu, hle, -, -⟩ | ⟨u, hu, -, hout, e⟩ | ⟨hge, -, -⟩
  · obtain rfl := varintWord_injective hu
    have := size_le_sinkRoom.mp hle
    omega
  · obtain rfl := varintWord_injective hu
    exact ⟨_, ⟨congrArg finish e, rfl, hout, ⟨rfl, rfl, rfl, rfl⟩, rfl⟩, ⟨rfl, rfl, rfl, rfl, rfl⟩⟩
  · have := v.isLt
    rw [varintWord_toNat] at hge
    omega

theorem execEnc_range {s : State} {r : Word64} (h : 2 ^ 62 ≤ r.toNat) :
    ∃ t, EncAnswers r (.failed .range 0 (Config.freeLanes s.tick)) (.err .range) s t ∧ HarnessSame s t := by
  have inRange : ∀ u : VarInt, r ≠ varintWord u := by
    rintro u rfl
    have := u.isLt
    rw [varintWord_toNat] at h
    omega
  rcases encOp_cases r s with ⟨u, hu, -⟩ | ⟨u, hu, -⟩ | ⟨-, hout, e⟩
  · exact absurd hu (inRange u)
  · exact absurd hu (inRange u)
  · exact ⟨_, ⟨congrArg finish e, rfl, hout, ⟨rfl, rfl, rfl, rfl⟩, rfl⟩, ⟨rfl, rfl, rfl, rfl, rfl⟩⟩

theorem EncOut.done_status {bs : List Byte} (h : bs.length ≤ 8) : EncStatus true 0#2 bs.length (.done bs) :=
  ⟨rfl, rfl, toNat_len4 h⟩

theorem EncOut.failed_status (e : ErrKind) {n : Nat} (h : n ≤ 8) (free : Lanes) :
    EncStatus false e.code n (.failed e n free) :=
  ⟨rfl, rfl, toNat_len4 h⟩

theorem encodeBytes_length_le (v : VarInt) : (encodeBytes v).length ≤ 8 := by
  have := size_cases v
  rw [encodeBytes_length]
  omega

/-- Settles O26: with room the call is ok, and the sink takes the lanes of the encoding. -/
theorem encWritesTheEncoding : Obligations.EncWritesTheEncoding := by
  intro s v h
  obtain ⟨t, ht, hwrote⟩ := execEnc_ok h
  have hlanes : (EncOut.done (encodeBytes v)).lanes.toList.take (encodeBytes v).length = encodeBytes v :=
    take_fill _ _ (encodeBytes_length_le v)
  rw [encodeBytes_length] at hlanes
  have hstatus := EncOut.done_status (encodeBytes_length_le v)
  rw [encodeBytes_length] at hstatus
  rw [← ht.out] at hlanes hstatus
  exact ⟨t, ht.runs, ht.shown, hstatus, hlanes, hwrote, ht.off, ht.logged⟩

/-- Settles O27: the two failing cases of the call on the harness. -/
theorem failedEncChangesNothing : Obligations.FailedEncChangesNothing := by
  refine ⟨fun s v h => ?_, fun s r h => ?_⟩
  · obtain ⟨t, ht, hsame⟩ := execEnc_io h
    have hstatus := EncOut.failed_status .io (by have := size_cases v; omega : size v ≤ 8) (Config.freeLanes s.tick)
    rw [← ht.out] at hstatus
    exact ⟨t, ht.runs, ht.shown, hstatus, hsame, ht.off, ht.logged⟩
  · obtain ⟨t, ht, hsame⟩ := execEnc_range (s := s) h
    have hstatus := EncOut.failed_status .range (Nat.zero_le 8) (Config.freeLanes s.tick)
    rw [← ht.out] at hstatus
    exact ⟨t, ht.runs, ht.shown, hstatus, hsame, ht.off, ht.logged⟩

/-- A row of the encoder's format map with an operand of its range, the raw value it is shown and its bytes (R76 to
R79). -/
inductive IsEncRow : Instr → Word64 → List Byte → Prop where
  | t1 (v : BitVec 6) : IsEncRow (.encT1 v) (v.setWidth 64) (w1 v)
  | t2 (v : BitVec 14) (h : 2 ^ 6 ≤ v.toNat) : IsEncRow (.encT2 v) (v.setWidth 64) (w2 v)
  | t4 (v : BitVec 30) (h : 2 ^ 14 ≤ v.toNat) : IsEncRow (.encT4 v) (v.setWidth 64) (w4 v)
  | t8 (v : BitVec 62) (h : 2 ^ 30 ≤ v.toNat) : IsEncRow (.encT8 v) (v.setWidth 64) (w8 v)

/-- A row of the format map is ENC of the value it is shown. -/
theorem IsEncRow.exec_eq {i : Instr} {r : Word64} {bs : List Byte} (h : IsEncRow i r bs) (s : State) :
    exec i s = execEnc r s := by
  cases h with
  | t1 v => exact execEncT1_eq v s
  | t2 v h => exact execEncT2_eq v s h
  | t4 v h => exact execEncT4_eq v s h
  | t8 v h => exact execEncT8_eq v s h

/-- The bytes of a row are the encoding of the value it is shown. -/
theorem IsEncRow.encoding {i : Instr} {r : Word64} {bs : List Byte} (h : IsEncRow i r bs) :
    ∃ v, r = varintWord v ∧ encodeBytes v = bs := by
  cases h with
  | t1 v =>
    have hv := setWidth62_toNat v (by norm_num)
    exact ⟨_, setWidth64_eq v (by norm_num), (IsItem.t1 v).encodeBytes _ hv (size_t1 (hv ▸ v.isLt))⟩
  | t2 v h =>
    have hv := setWidth62_toNat v (by norm_num)
    exact ⟨_, setWidth64_eq v (by norm_num), (IsItem.t2 v).encodeBytes _ hv (size_t2 (hv ▸ h) (hv ▸ v.isLt))⟩
  | t4 v h =>
    have hv := setWidth62_toNat v (by norm_num)
    exact ⟨_, setWidth64_eq v (by norm_num), (IsItem.t4 v).encodeBytes _ hv (size_t4 (hv ▸ h) (hv ▸ v.isLt))⟩
  | t8 v h =>
    have hv := setWidth62_toNat v (by norm_num)
    exact ⟨_, setWidth64_eq v (by norm_num), (IsItem.t8 v).encodeBytes _ hv (size_t8 (hv ▸ h))⟩

theorem IsEncRow.writes {i : Instr} {r : Word64} {bs : List Byte} (h : IsEncRow i r bs) {s : State}
    (hroom : bs.length ≤ s.cap - s.wrPos) :
    ∃ t, exec i s = .next t ∧ EncShown r (min 8 (s.cap - s.wrPos)) t ∧ EncStatus true 0#2 bs.length t.encOut ∧
      t.encOut.lanes = Lanes.fill bs Lanes.zero ∧ HarnessWrote bs s t ∧ DecoderOff s t ∧ Logged (.bytes bs) s t := by
  obtain ⟨v, rfl, rfl⟩ := h.encoding
  obtain ⟨t, ht, hwrote⟩ := execEnc_ok (encodeBytes_length v ▸ hroom)
  refine ⟨t, (h.exec_eq s).trans ht.runs, ht.shown, ?_, ?_, hwrote, ht.off, ht.logged⟩ <;> rw [ht.out]
  · exact EncOut.done_status (encodeBytes_length_le v)
  · rfl

theorem IsEncRow.reports_io {i : Instr} {r : Word64} {bs : List Byte} (h : IsEncRow i r bs) {s : State}
    (hroom : s.cap - s.wrPos < bs.length) :
    ∃ t, exec i s = .next t ∧ EncShown r (min 8 (s.cap - s.wrPos)) t ∧ EncStatus false 2#2 bs.length t.encOut ∧
      HarnessSame s t ∧ DecoderOff s t ∧ Logged (.err .io) s t := by
  obtain ⟨v, rfl, rfl⟩ := h.encoding
  obtain ⟨t, ht, hsame⟩ := execEnc_io (encodeBytes_length v ▸ hroom)
  refine ⟨t, (h.exec_eq s).trans ht.runs, ht.shown, ?_, hsame, ht.off, ht.logged⟩
  rw [ht.out, ← encodeBytes_length v]
  exact EncOut.failed_status .io (encodeBytes_length_le v) _

/-- Settles O28: each row is ENC of its value, whose encoding is the row's format. -/
theorem encRowsWriteTheirFormats : Obligations.EncRowsWriteTheirFormats :=
  fun _ => ⟨fun v hroom => (IsEncRow.t1 v).writes hroom, fun v hv hroom => (IsEncRow.t2 v hv).writes hroom,
    fun v hv hroom => (IsEncRow.t4 v hv).writes hroom, fun v hv hroom => (IsEncRow.t8 v hv).writes hroom⟩

/-- Settles O29: each row is ENC of its value, which asks for as many bytes as the row has. -/
theorem encRowsWithoutRoomReportIo : Obligations.EncRowsWithoutRoomReportIo :=
  fun _ => ⟨fun v hroom => (IsEncRow.t1 v).reports_io hroom, fun v hv hroom => (IsEncRow.t2 v hv).reports_io hroom,
    fun v hv hroom => (IsEncRow.t4 v hv).reports_io hroom, fun v hv hroom => (IsEncRow.t8 v hv).reports_io hroom⟩

/-- Settles O30: the row is ENC of its value, which fails the range check. -/
theorem encRangeRowReportsRange : Obligations.EncRangeRowReportsRange := by
  intro s r h
  obtain ⟨t, hruns, hrest⟩ := failedEncChangesNothing.2 s r h
  exact ⟨t, (execEncRange_eq r s h).trans hruns, hrest⟩

/-! ### Decoder calls -/

/-- DEC, shown the bytes `bs`, answers `t`: the outputs `o`, the result `res`, the encoder not called. -/
structure DecAnswers (bs : List Byte) (o : DecOut) (res : Result) (s t : State) : Prop where
  runs : execDec s = .next t
  shown : DecShown bs t
  out : t.decOut = o
  off : EncoderOff s t
  logged : Logged res s t

theorem Window.length_le {s : State} {bs : List Byte} (h : Window s bs) : bs.length ≤ 8 :=
  h.1.trans_le (sourceAvail_le s)

theorem showBytes_avail {bs : List Byte} (h : bs.length ≤ 8) (s : State) : (showBytes bs s).avail.toNat = bs.length :=
  toNat_len4 h

theorem decShown_of_decIn {bs : List Byte} {s t : State} (h : bs.length ≤ 8) (ht : t.decIn = showBytes bs s) :
    DecShown bs t where
  valid := by rw [ht]; rfl
  avail := by rw [ht]; exact showBytes_avail h s
  lanes := by rw [ht]; exact take_fill bs _ h

theorem execDec_window {s : State} {bs : List Byte} (h : Window s bs) :
    execDec s = finish (takeDec (decCall (showBytes bs s) s)) := by
  rw [execDec, decOp_window h]
  rfl

/-- A window on which the module reports an error. -/
theorem execDec_failed {s : State} {bs : List Byte} {n : Nat} (h : Window s bs)
    (hout : decEval (showBytes bs s) (Config.freeValue s.tick) = .failed .io n (Config.freeValue s.tick)) :
    ∃ t, DecAnswers bs (.failed .io n (Config.freeValue s.tick)) (.err .io) s t ∧ HarnessSame s t := by
  have e := (execDec_window h).trans (congrArg finish (takeDec_failed hout))
  exact ⟨_, ⟨e, decShown_of_decIn h.length_le rfl, hout, ⟨rfl, rfl, rfl, rfl⟩, rfl⟩, ⟨rfl, rfl, rfl, rfl, rfl⟩⟩

theorem execDec_empty {s : State} (h : Window s []) :
    ∃ t, DecAnswers [] (.failed .io 0 (Config.freeValue s.tick)) (.err .io) s t ∧ HarnessSame s t :=
  execDec_failed h (decEval_empty _ _ rfl rfl)

theorem execDec_short {s : State} {b : Byte} {rest : List Byte} (h : Window s (b :: rest))
    (hlt : rest.length + 1 < encodedSize b) :
    ∃ t, DecAnswers (b :: rest) (.failed .io (encodedSize b) (Config.freeValue s.tick)) (.err .io) s t ∧
      HarnessSame s t := by
  have havail := showBytes_avail h.length_le s
  rw [List.length_cons] at havail
  exact execDec_failed h (decEval_short _ _ rfl (by omega) (by rw [havail]; exact hlt))

theorem execDec_ok {s : State} {b : Byte} {rest : List Byte} (h : Window s (b :: rest))
    (hle : encodedSize b ≤ rest.length + 1) :
    ∃ t, DecAnswers (b :: rest) (.done (BitVec.ofNat 64 (rawValue ((b :: rest).take (encodedSize b)))) (encodedSize b))
        (.decoded (BitVec.ofNat 64 (rawValue ((b :: rest).take (encodedSize b)))) (encodedSize b)) s t ∧
      HarnessRead (encodedSize b) s t := by
  have h8 := h.length_le
  rcases takeDec_cases (b :: rest) h8 s with ⟨hnil, -⟩ | ⟨c, tl, hc, hlt, -⟩ | ⟨c, tl, hc, -, hout, e⟩
  · cases hnil
  · cases hc
    rw [List.length_cons] at hlt
    omega
  · cases hc
    exact ⟨_, ⟨(execDec_window h).trans (congrArg finish e), decShown_of_decIn h8 rfl, hout, ⟨rfl, rfl, rfl, rfl⟩, rfl⟩,
      ⟨rfl, rfl, rfl, rfl, rfl⟩⟩

theorem DecOut.failed_status (e : ErrKind) {n : Nat} (h : n ≤ 8) (free : Word64) :
    DecStatus false e.code n (.failed e n free) :=
  ⟨rfl, rfl, toNat_len4 h⟩

theorem encodedSize_le (b : Byte) : encodedSize b ≤ 8 := by
  have := encodedSize_cases b
  omega

/-- Clearing the tag is the big-endian number modulo the tag's weight (R46, R47). -/
theorem rawValue_eq_mod (b : Byte) (rest : List Byte) :
    rawValue (b :: rest) = fromBe (b :: rest) % 2 ^ (8 * (rest.length + 1) - 2) := by
  have hweight : 2 ^ (8 * (rest.length + 1) - 2) = 64 * 256 ^ rest.length := by
    rw [show 8 * (rest.length + 1) - 2 = 6 + 8 * rest.length by omega, Nat.pow_add, Nat.pow_mul]
  have hrest := fromBe_lt rest
  have hsplit : fromBe (b :: rest)
      = (b.toNat % 64 * 256 ^ rest.length + fromBe rest) + 64 * 256 ^ rest.length * (b.toNat / 64) := by
    have hb := congrArg (· * 256 ^ rest.length) (Nat.mod_add_div b.toNat 64)
    simp only [fromBe]
    linarith
  have hlt : b.toNat % 64 * 256 ^ rest.length + fromBe rest < 64 * 256 ^ rest.length := by
    have : b.toNat % 64 * 256 ^ rest.length ≤ 63 * 256 ^ rest.length := Nat.mul_le_mul_right _ (by omega)
    omega
  rw [hweight, hsplit, Nat.add_mul_mod_self_left, Nat.mod_eq_of_lt hlt, rawValue, fromBe, toNat_maskTag]

/-- Settles O34: the value is the item's number with the tag cleared, which is that number modulo the tag's weight. -/
theorem decReadsTheNextItem : Obligations.DecReadsTheNextItem := by
  intro s b rest h hle
  obtain ⟨t, ht, hread⟩ := execDec_ok h hle
  obtain ⟨n, hn⟩ : ∃ n, encodedSize b = n + 1 := ⟨encodedSize b - 1, by have := encodedSize_cases b; omega⟩
  have h8 := encodedSize_le b
  have hstatus : DecStatus true 0#2 (encodedSize b) t.decOut := by
    rw [ht.out]
    exact ⟨rfl, rfl, toNat_len4 h8⟩
  have hvalue : t.decOut.value.toNat = fromBe (b :: rest.take n) % 2 ^ (8 * (n + 1) - 2) := by
    have hlen : (rest.take n).length = n := by
      rw [List.length_take]
      omega
    have hraw := rawValue_lt (b :: rest.take n) (by rw [List.length_cons, hlen]; omega)
    rw [ht.out, hn]
    simp only [DecOut.done, List.take_succ_cons, BitVec.toNat_ofNat]
    rw [Nat.mod_eq_of_lt (hraw.trans (by norm_num)), rawValue_eq_mod, hlen]
  have hlogged : Logged (.decoded t.decOut.value (encodedSize b)) s t := by
    rw [ht.out]
    exact ht.logged
  refine ⟨t, ht.runs, ht.shown, hstatus, ?_, hread, ht.off, hlogged⟩
  rw [hvalue, hn, Nat.add_sub_cancel]

theorem window_nil {s : State} (h : s.wrPos ≤ s.rdPos) : Window s [] := by
  refine ⟨?_, fun k hk => absurd hk (Nat.not_lt_zero k)⟩
  rw [sourceAvail, unreadCount, Nat.sub_eq_zero_of_le h]
  rfl

/-- Settles O35: with no byte and with too few the module reports Io, so the harness moves nothing. -/
theorem failedDecChangesNothing : Obligations.FailedDecChangesNothing := by
  refine ⟨fun s h => ?_, fun s b rest h hlt => ?_⟩
  · obtain ⟨t, ht, hsame⟩ := execDec_empty (window_nil h)
    exact ⟨t, ht.runs, ht.shown, ht.out ▸ DecOut.failed_status .io (Nat.zero_le 8) _, hsame, ht.off, ht.logged⟩
  · obtain ⟨t, ht, hsame⟩ := execDec_short h hlt
    exact ⟨t, ht.runs, ht.shown, ht.out ▸ DecOut.failed_status .io (encodedSize_le b) _, hsame, ht.off, ht.logged⟩

theorem exec_item {i : Instr} {bs : List Byte} {v : Nat} (hi : IsItem i bs v) (s : State) :
    exec i s = decItem bs (BitVec.ofNat 64 v) s := by
  cases hi with
  | t1 v => rw [setWidth64_ofNat v (by norm_num)]; rfl
  | t2 v => rw [setWidth64_ofNat v (by norm_num)]; rfl
  | t4 v => rw [setWidth64_ofNat v (by norm_num)]; rfl
  | t8 v => rw [setWidth64_ofNat v (by norm_num)]; rfl

/-- The row of an item is DEC where the window agrees with the item as far as both reach. -/
theorem exec_item_eq_dec {i : Instr} {bs real : List Byte} {v : Nat} (hi : IsItem i bs v) {s : State}
    (h : Window s real) (hagree : real.take bs.length = bs.take real.length) : exec i s = execDec s :=
  (exec_item hi s).trans (decItem_eq hi s real (nextBytes_window h) hagree)

theorem exec_item_reads {i : Instr} {bs : List Byte} {v : Nat} (hi : IsItem i bs v) {w : Word64}
    (hw : BitVec.ofNat 64 v = w) {s : State} {rest : List Byte} (h : Window s (bs ++ rest)) :
    ∃ t, exec i s = .next t ∧ DecShown (bs ++ rest) t ∧ t.decOut = .done w bs.length ∧
      HarnessRead bs.length s t ∧ EncoderOff s t ∧ Logged (.decoded w bs.length) s t := by
  obtain ⟨b, tl, rfl, hsize⟩ := hi.head
  have hle : encodedSize b ≤ (tl ++ rest).length + 1 := by
    rw [hsize, List.length_append, List.length_cons]
    omega
  have htake : (b :: (tl ++ rest)).take (encodedSize b) = b :: tl := by
    rw [hsize]
    exact List.take_left
  obtain ⟨t, ht, hread⟩ := execDec_ok (rest := tl ++ rest) h hle
  have hdec : exec i s = execDec s := exec_item_eq_dec hi h (by
    rw [List.take_left, List.take_of_length_le (by simp)])
  rw [htake, hi.rawValue, hw, hsize] at ht
  rw [hsize] at hread
  exact ⟨t, hdec.trans ht.runs, ht.shown, ht.out, hread, ht.off, ht.logged⟩

/-- Settles O36: each row is DEC, which reads the row's item and its value field. -/
theorem decRowsReadTheirItems : Obligations.DecRowsReadTheirItems :=
  fun _ _ =>
    ⟨fun v h => exec_item_reads (.t1 v) (setWidth64_ofNat v (by norm_num)) h,
      fun v h => exec_item_reads (.t2 v) (setWidth64_ofNat v (by norm_num)) h,
      fun v h => exec_item_reads (.t4 v) (setWidth64_ofNat v (by norm_num)) h,
      fun v h => exec_item_reads (.t8 v) (setWidth64_ofNat v (by norm_num)) h⟩

theorem exec_item_truncated {i : Instr} {bs cut : List Byte} {v : Nat} (hi : IsItem i bs v) {s : State}
    (hcut : cut <+: bs) (hlt : cut.length < bs.length) (h : Window s cut) :
    ∃ t, exec i s = .next t ∧ DecShown cut t ∧ DecStatus false 2#2 (if cut = [] then 0 else bs.length) t.decOut ∧
      HarnessSame s t ∧ EncoderOff s t ∧ Logged (.err .io) s t := by
  have hagree : cut.take bs.length = bs.take cut.length := by
    obtain ⟨tl, rfl⟩ := hcut
    rw [List.take_of_length_le hlt.le, List.take_left]
  rw [exec_item_eq_dec hi h hagree]
  cases cut with
  | nil =>
    obtain ⟨t, ht, hsame⟩ := execDec_empty h
    exact ⟨t, ht.runs, ht.shown, ht.out ▸ DecOut.failed_status .io (Nat.zero_le 8) _, hsame, ht.off, ht.logged⟩
  | cons b rest =>
    obtain ⟨c, tl, rfl, hsize⟩ := hi.head
    obtain rfl : b = c := (List.cons_prefix_cons.mp hcut).1
    rw [if_neg (List.cons_ne_nil _ _), ← hsize]
    exact failedDecChangesNothing.2 s b rest h (by rw [hsize]; exact hlt)

theorem isItem_of_wireRow {i : Instr} {bs : List Byte}
    (h : (∃ v, i = .decT1 v) ∨ (∃ v, i = .decT2 v) ∨ (∃ v, i = .decT4 v) ∨ (∃ v, i = .decT8 v))
    (hbs : encode i = some bs) : ∃ v, IsItem i bs v := by
  rcases h with ⟨v, rfl⟩ | ⟨v, rfl⟩ | ⟨v, rfl⟩ | ⟨v, rfl⟩ <;> cases hbs
  · exact ⟨_, .t1 v⟩
  · exact ⟨_, .t2 v⟩
  · exact ⟨_, .t4 v⟩
  · exact ⟨_, .t8 v⟩

/-- Settles O37: the row is DEC, and an item's first byte already demands the whole item. -/
theorem decRowsOnATruncatedItemReportIo : Obligations.DecRowsOnATruncatedItemReportIo := by
  intro s i bs cut hrow hbs hcut hlt h
  obtain ⟨v, hi⟩ := isItem_of_wireRow hrow hbs
  exact exec_item_truncated hi hcut hlt h

end Sys2Proof.Machine

/-! The stream: read after write in the buffer, DEC after ENC through it, and the step that performs each kind of
line. -/

namespace Sys2Proof.Machine

/-! ### DEC after ENC -/

/-- With everything read before, the bytes of an item that were written are the whole window (R20). -/
theorem HarnessWrote.window {bs : List Byte} {s t : State} (h : HarnessWrote bs s t) (hread : s.rdPos = s.wrPos)
    (h8 : bs.length ≤ 8) : Window t bs := by
  have hrd : t.rdPos = s.wrPos := h.rdPos.trans hread
  refine ⟨?_, fun k hk => ?_⟩
  · rw [sourceAvail, unreadCount, hrd, h.wrPos, Nat.add_sub_cancel_left, Nat.min_eq_right h8]
  · rw [hrd, h.stored k hk]

/-- DEC of a window that is the encoding of `v` reads `v` and its size (R105). -/
theorem execDec_encodeBytes {v : VarInt} {s : State} (h : Window s (encodeBytes v)) :
    ∃ t, execDec s = .next t ∧ HarnessRead (size v) s t ∧ Logged (.decoded (varintWord v) (size v)) s t := by
  obtain ⟨i, hi⟩ := encodeBytes_isItem v
  have hdec : exec i s = execDec s := exec_item_eq_dec hi h rfl
  obtain ⟨t, hruns, -, -, hread, -, hlogged⟩ :=
    exec_item_reads (rest := []) hi (setWidth64_ofNat v (by norm_num)) (by rwa [List.append_nil])
  rw [encodeBytes_length] at hread hlogged
  exact ⟨t, hdec.symm.trans hruns, hread, hlogged⟩

/-- Settles O52: the bytes that ENC wrote are the window that DEC is shown. -/
theorem decReadsBackWhatEncWrote : Obligations.DecReadsBackWhatEncWrote := by
  intro s v hs hroom
  obtain ⟨t, henc, hwrote⟩ := execEnc_ok hroom
  obtain ⟨u, hdec, hread, hlogged⟩ := execDec_encodeBytes (hwrote.window hs (encodeBytes_length_le v))
  have hwr : t.wrPos = s.wrPos + size v := by rw [hwrote.wrPos, encodeBytes_length]
  have hrd : t.rdPos = s.wrPos := hwrote.rdPos.trans hs
  refine ⟨t, u, henc.runs, hdec, hlogged, ?_, hread.wrPos.trans hwr⟩
  rw [hread.rdPos, hread.wrPos, hrd, hwr]

/-! ### Reads of the buffer -/

/-- `MemRead` depends on the bytes of its range alone (R27). -/
theorem memRead_congr (cap : Nat) {m m' : Memory} (n : Nat) :
    ∀ a, (∀ k, a ≤ k → k < a + n → m.get k = m'.get k) → memRead cap m a n = memRead cap m' a n := by
  induction n with
  | zero => intro a _; rfl
  | succ n ih =>
    intro a h
    have hhead : readByte cap m a = readByte cap m' a := by
      rw [readByte, readByte, h a (Nat.le_refl a) (by omega)]
    have htail : memRead cap m (a + 1) n = memRead cap m' (a + 1) n :=
      ih (a + 1) fun k hlo hhi => h k (by omega) (by omega)
    rw [memRead, memRead, hhead, htail]

/-- Settles O50: the written range holds the bytes written, and every index outside it reads as before. -/
theorem readAfterWrite : Obligations.ReadAfterWrite := by
  intro cap m a bs
  refine ⟨memRead_ok cap _ bs a fun k hk => memWrite_get_in bs m a k hk, fun c n hapart => ?_⟩
  exact memRead_congr cap n c fun k hlo hhi => memWrite_get_other bs m a k (by omega)

/-! ### The next line -/

theorem popLine_of_script_cons {s : State} {l : Line} {ls : List Line} (h : s.script = l :: ls) :
    popLine s = { s with script := ls } := by
  rw [popLine, h, List.tail_cons]

/-- Settles O45: the step runs the first line on the state without it, whatever the line's kind. -/
theorem stepRunsTheNextLine : Obligations.StepRunsTheNextLine := by
  have runs : ∀ (s : State) (l : Line) (rest : List Line), s.script = l :: rest →
      step s = runLine l { s with script := rest } := fun s l rest h => by
    rw [step_of_script_cons h, popLine_of_script_cons h]
  exact ⟨fun s i rest h => runs s (.op i) rest h, fun s rest h => runs s .skip rest h,
    fun s k sofar rest h => runs s (.untilEmpty k sofar) rest h⟩

end Sys2Proof.Machine

/-! The encoding: the decoder of wire bytes against the formats, the encoder's format map, and the operations and lines
whose meaning is an item's. -/

namespace Sys2Proof

open Machine

/-! ### Items and the decoder of wire bytes -/

/-- The group a row whose item has `n` bytes and the value `v`. -/
def itemRow (n v : Nat) : Instr :=
  match n with
  | 1 => .decT1 (BitVec.ofNat 6 v)
  | 2 => .decT2 (BitVec.ofNat 14 v)
  | 4 => .decT4 (BitVec.ofNat 30 v)
  | _ => .decT8 (BitVec.ofNat 62 v)

/-- Length and value tell which item a byte string is. -/
theorem IsItem.eq_itemRow {i : Instr} {bs : List Byte} {v : Nat} (h : IsItem i bs v) : i = itemRow bs.length v := by
  cases h with
  | t1 v => exact congrArg Instr.decT1 (BitVec.ofNat_toNat 6 v ▸ v.setWidth_eq).symm
  | t2 v => exact congrArg Instr.decT2 (BitVec.ofNat_toNat 14 v ▸ v.setWidth_eq).symm
  | t4 v => exact congrArg Instr.decT4 (BitVec.ofNat_toNat 30 v ▸ v.setWidth_eq).symm
  | t8 v => exact congrArg Instr.decT8 (BitVec.ofNat_toNat 62 v ▸ v.setWidth_eq).symm

/-- A byte string is the item of one row only. -/
theorem IsItem.row_unique {i j : Instr} {bs : List Byte} {v w : Nat} (hi : IsItem i bs v) (hj : IsItem j bs w) :
    i = j := by
  rw [hi.eq_itemRow, hj.eq_itemRow, ← hi.rawValue, ← hj.rawValue]

/-- The first byte of a string tells how long the item at its head is. -/
theorem IsItem.length_of_append {i : Instr} {bs : List Byte} {v : Nat} (hi : IsItem i bs v) {b : Byte}
    {rest tl : List Byte} (h : b :: rest = bs ++ tl) : bs.length = encodedSize b := by
  obtain ⟨c, cs, rfl, hsize⟩ := hi.head
  obtain rfl : b = c := (List.cons.inj h).1
  exact hsize.symm

/-- Decoding an item's bytes gives the item, whatever follows (R48): one byte string has one item at its head, since
its first byte fixes the length. -/
theorem IsItem.decode_append {i : Instr} {bs : List Byte} {v : Nat} (hi : IsItem i bs v) (rest : List Byte) :
    decode (bs ++ rest) = .ok (i, rest) := by
  obtain ⟨b, tl, rfl, hsize⟩ := hi.head
  have hlong : encodedSize b ≤ (tl ++ rest).length + 1 := by
    rw [hsize, List.length_append, List.length_cons]
    omega
  obtain ⟨j, cs, w, after, hdecode, hj, hcat⟩ := decode_long b (tl ++ rest) hlong
  have hlen : (b :: tl).length = cs.length := hsize.symm.trans (hj.length_of_append hcat).symm
  obtain ⟨rfl, rfl⟩ := List.append_inj (s₁ := b :: tl) hcat hlen
  rw [hi.row_unique hj]
  exact hdecode

/-- Settles O22: each format's bytes are an item, and an item's bytes decode to it. -/
theorem decodeOfEncodeIsTheItem : Obligations.DecodeOfEncodeIsTheItem :=
  fun rest => ⟨fun v => ⟨_, rfl, (IsItem.t1 v).decode_append rest⟩, fun v => ⟨_, rfl, (IsItem.t2 v).decode_append rest⟩,
    fun v => ⟨_, rfl, (IsItem.t4 v).decode_append rest⟩, fun v => ⟨_, rfl, (IsItem.t8 v).decode_append rest⟩⟩

/-- Settles O23: a string that is long enough begins with the item that is read. -/
theorem decodeFailsOnlyOnShortInput : Obligations.DecodeFailsOnlyOnShortInput := by
  refine ⟨rfl, fun b rest => ⟨decode_short b rest, fun h => ?_⟩⟩
  obtain ⟨i, bs, v, tl, hdecode, hi, hcat⟩ := decode_long b rest h
  exact ⟨i, bs, tl, hdecode, hi.encode, hcat.symm, hi.length_of_append hcat⟩

/-- What the decoder reads is an item, whose bytes stand at the head of the string. -/
theorem isItem_of_decode {bs rest : List Byte} {i : Instr} (h : decode bs = .ok (i, rest)) :
    ∃ cs v, IsItem i cs v ∧ bs = cs ++ rest := by
  cases bs with
  | nil => cases h
  | cons b tl =>
    rcases Nat.lt_or_ge (tl.length + 1) (encodedSize b) with hlt | hge
    · rw [decode_short b tl hlt] at h
      cases h
    · obtain ⟨j, cs, v, after, hdecode, hj, hcat⟩ := decode_long b tl hge
      rw [hdecode] at h
      cases h
      exact ⟨cs, v, hj, hcat⟩

/-- Settles O25: each word is evaluated. -/
theorem writtenOutWordsDecode : Obligations.WrittenOutWordsDecode := by
  unfold Obligations.WrittenOutWordsDecode
  decide

/-! ### The encoder's format map -/

/-- The bits of a word from `lo` up are 0 exactly when its number is below `2 ^ lo`. -/
theorem topBits_eq_zero {n : Nat} (x : BitVec n) (lo len : Nat) (h : lo + len = n) :
    x.extractLsb' lo len = 0#len ↔ x.toNat < 2 ^ lo := by
  have hlt : x.toNat / 2 ^ lo < 2 ^ len := by
    apply Nat.div_lt_of_lt_mul
    rw [← Nat.pow_add, h]
    exact x.isLt
  rw [← BitVec.toNat_inj, toNat_slice, Nat.mod_eq_of_lt hlt]
  simp

/-- The low bits of a word that fits them are the whole word. -/
theorem setWidth_low {r : Word64} {n : Nat} (h : r.toNat < 2 ^ n) : (r.extractLsb' 0 n).setWidth 64 = r := by
  apply BitVec.eq_of_toNat_eq
  rw [BitVec.toNat_setWidth, toNat_low h, Nat.mod_eq_of_lt r.isLt]

/-- Below 2^62 the map selects a row of R76 to R79, in its range and shown the raw value itself. -/
theorem selectFormat_isEncRow {r : Word64} (h : r.toNat < 2 ^ 62) : ∃ bs, IsEncRow (selectFormat r) r bs := by
  rw [selectFormat_eq]
  split_ifs with h6 h14 h30
  · exact ⟨_, by simpa only [setWidth_low h6] using IsEncRow.t1 (r.extractLsb' 0 6)⟩
  · exact ⟨_, by simpa only [setWidth_low h14] using IsEncRow.t2 (r.extractLsb' 0 14) (by rw [toNat_low h14]; omega)⟩
  · exact ⟨_, by simpa only [setWidth_low h30] using IsEncRow.t4 (r.extractLsb' 0 30) (by rw [toNat_low h30]; omega)⟩
  · exact ⟨_, by simpa only [setWidth_low h] using IsEncRow.t8 (r.extractLsb' 0 62) (by rw [toNat_low h]; omega)⟩

theorem selectFormat_range {r : Word64} (h : 2 ^ 62 ≤ r.toNat) : selectFormat r = .encRange r := by
  rw [selectFormat_eq, if_neg (by omega), if_neg (by omega), if_neg (by omega), if_neg (by omega)]

theorem Machine.IsEncRow.wf {i : Instr} {r : Word64} {bs : List Byte} (h : IsEncRow i r bs) : i.wf = true := by
  cases h with
  | t1 v => rfl
  | t2 v h => exact decide_eq_true h
  | t4 v h => exact decide_eq_true h
  | t8 v h => exact decide_eq_true h

theorem selectFormat_wf (r : Word64) : (selectFormat r).wf = true := by
  rcases Nat.lt_or_ge r.toNat (2 ^ 62) with h | h
  · obtain ⟨bs, hrow⟩ := selectFormat_isEncRow h
    exact hrow.wf
  · rw [selectFormat_range h]
    exact decide_eq_true h

/-- Settles O24: the table's tests on slices are the bounds that `selectFormat` compares the raw value with. -/
theorem formatMapFollowsTheTable : Obligations.FormatMapFollowsTheTable := by
  intro r
  simp only [ne_eq, topBits_eq_zero r 62 2 rfl, topBits_eq_zero r 6 58 rfl, topBits_eq_zero r 14 50 rfl,
    topBits_eq_zero r 30 34 rfl, Nat.not_lt]
  refine ⟨selectFormat_range, fun h => ?_, fun h h' => ?_, fun h h' => ?_, fun h h' => ?_, selectFormat_wf r⟩ <;>
    rw [selectFormat_eq]
  · rw [if_pos h]
  · rw [if_neg (by omega), if_pos h']
  · rw [if_neg (by omega), if_neg (by omega), if_pos h']
  · rw [if_neg (by omega), if_neg (by omega), if_neg (by omega), if_pos h']

/-- Settles O31: each row in its range is ENC of the raw value it is shown, and so is ENC.RANGE. -/
theorem encIsTheRowItSelects : Obligations.EncIsTheRowItSelects := by
  intro r s
  rcases Nat.lt_or_ge r.toNat (2 ^ 62) with h | h
  · obtain ⟨bs, hrow⟩ := selectFormat_isEncRow h
    exact (hrow.exec_eq s).symm
  · rw [selectFormat_range h]
    exact (execEncRange_eq r s h).symm

end Sys2Proof

namespace Sys2Proof.Machine

/-! ### The decoder's values -/

/-- An ok decoder call whose item assembles to the number of `x` drives `x`, zero-extended. -/
theorem decEval_assembles {l : Lanes} {avail : BitVec 4} {n m : Nat} {x : BitVec m} (free : Word64) (hm : m ≤ 64)
    (hsize : encodedSize l.b0 = n) (havail : n ≤ avail.toNat) (hx : rawValue (l.toList.take n) = x.toNat) :
    decEval ⟨true, l, avail⟩ free = .done (x.setWidth 64) n := by
  subst hsize
  rw [decEval_ok ⟨true, l, avail⟩ free rfl havail, hx, setWidth64_ofNat x hm]

/-- The length of a first byte whose top two bits are `k`. -/
theorem encodedSize_of_tag {b : Byte} (k : Nat) (h : b.toNat / 64 = k) : encodedSize b = 2 ^ k := by
  rw [encodedSize_eq, h]

/-- Settles O12: both sides are the big-endian number of the item's lanes without the tag. -/
theorem decoderAssemblesEachTier : Obligations.DecoderAssemblesEachTier := by
  intro l avail free
  have htag := l.b0.isLt
  refine ⟨fun hlt h => decEval_assembles free (by norm_num) (encodedSize_of_tag 0 (by omega)) h ?_,
    fun hge hlt h => decEval_assembles free (by norm_num) (encodedSize_of_tag 1 (by omega)) h ?_,
    fun hge hlt h => decEval_assembles free (by norm_num) (encodedSize_of_tag 2 (by omega)) h ?_,
    fun hge h => decEval_assembles free (by norm_num) (encodedSize_of_tag 3 (by omega)) h ?_⟩
  all_goals
    simp only [Lanes.toList, List.take, rawValue, fromBe, toNat_maskTag, toNat_append_add, toNat_slice, List.length]
    omega

/-! ### Wire rows and DEC -/

/-- Two lists agree as far as both reach exactly when one begins with the other. -/
theorem take_length_eq_iff (as bs : List Byte) :
    as.take bs.length = bs.take as.length ↔ bs <+: as ∨ as <+: bs := by
  constructor
  · intro h
    rcases Nat.le_total bs.length as.length with hle | hle
    · rw [List.take_of_length_le hle] at h
      exact .inl (h ▸ List.take_prefix _ _)
    · rw [List.take_of_length_le hle] at h
      exact .inr (h ▸ List.take_prefix _ _)
  · rintro (⟨tl, rfl⟩ | ⟨tl, rfl⟩)
    · rw [List.take_left, List.take_of_length_le (by simp)]
    · rw [List.take_left, List.take_of_length_le (by simp)]

/-- Settles O38: the row compares the window with its item as far as both reach. -/
theorem decRowsRefuseAnotherItem : Obligations.DecRowsRefuseAnotherItem := by
  intro s i bs real hrow hbs hwindow hitem hcut
  obtain ⟨v, hi⟩ := isItem_of_wireRow hrow hbs
  have hother : ¬ real.take bs.length = bs.take real.length := by
    rw [take_length_eq_iff]
    exact not_or.mpr ⟨hitem, hcut⟩
  rw [exec_item hi, decItem, nextBytes_window hwindow]
  exact if_neg hother

/-- Settles O39: the window begins with the item that it decodes to. -/
theorem decIsTheRowOfTheUnreadItem : Obligations.DecIsTheRowOfTheUnreadItem := by
  intro s bs rest i hwindow hdecode
  obtain ⟨cs, v, hi, rfl⟩ := isItem_of_decode hdecode
  exact (exec_item_eq_dec hi hwindow ((take_length_eq_iff _ _).mpr (.inl ⟨rest, rfl⟩))).symm

/-- Settles O46: the step of DEC is DEC on the state without the line, which has the same window. -/
theorem stepRunsTheDecodedItem : Obligations.StepRunsTheDecodedItem := by
  intro s bs after i rest hscript hwindow hdecode
  obtain ⟨cs, v, hi, -⟩ := isItem_of_decode hdecode
  exact ⟨hi.wf, (stepRunsTheNextLine.1 s .dec rest hscript).trans
    (decIsTheRowOfTheUnreadItem _ bs after i hwindow hdecode)⟩

/-! ### Refused operands, and SIZE -/

theorem whenWf_refused {i : Instr} (a : Answer) (h : ¬ i.wf = true) : whenWf i a = .refused .illFormed := if_neg h

/-- Settles O32: in each case the range check of the row's operand fails. -/
theorem operandsOutsideTheirRowAreRefused : Obligations.OperandsOutsideTheirRowAreRefused := by
  intro s
  refine ⟨fun v h => whenWf_refused _ ?_, fun v h => whenWf_refused _ ?_, fun v h => whenWf_refused _ ?_,
    fun r h => whenWf_refused _ ?_, fun width w h => whenWf_refused _ ?_⟩
  · simpa [Instr.wf] using h
  · simpa [Instr.wf] using h
  · simpa [Instr.wf] using h
  · simpa [Instr.wf] using h
  · intro hwf
    obtain ⟨hwidth, hw⟩ : width ≤ 64 ∧ w.toNat < 2 ^ width := by simpa [Instr.wf] using hwf
    omega

theorem readEncLen_length {s : State} {n : Nat} (h : s.encOut.len.toNat = n) (hn : n ≠ 0) :
    readEncLen s = (s, .length n) := by
  have hnz : s.encOut.len ≠ 0#4 := fun h0 => hn (by rw [← h, h0]; rfl)
  rw [readEncLen, if_neg hnz, h]

theorem readEncLen_failed {s : State} {e : ErrKind} {free : Lanes} (h : s.encOut = .failed e 0 free) :
    readEncLen s = (s, .err e) := by
  simp [readEncLen, h, EncOut.failed]

/-- With room 8 the length output of a VarInt is its size (R73). -/
theorem encCall_size (v : VarInt) (s : State) : (encCall (varintWord v) 8 s).encOut.len.toNat = size v := by
  have hroom : size v ≤ (BitVec.ofNat 4 8).toNat := by
    have := size_cases v
    rw [toNat_len4 (Nat.le_refl 8)]
    omega
  rw [encCall_encOut, encEval_ok ⟨true, varintWord v, BitVec.ofNat 4 8⟩ _ v rfl rfl hroom, ← encodeBytes_length v]
  exact toNat_len4 (encodeBytes_length_le v)

/-- Settles O33: room 8 is enough for every VarInt, and Range has length 0. -/
theorem sizeLineReadsTheLength : Obligations.SizeLineReadsTheLength := by
  refine ⟨fun s v => ?_, fun s r h => ?_⟩
  · have hlen := encCall_size v s
    have hread := readEncLen_length hlen (by have := size_cases v; omega)
    exact ⟨_, congrArg finish hread, rfl, hlen, (encCall_same _ 8 s).record _, ⟨rfl, rfl, rfl, rfl⟩, rfl⟩
  · have hout := (encCall_encOut r 8 s).trans (encEval_range _ _ rfl h)
    have hstatus := EncOut.failed_status .range (Nat.zero_le 8) (Config.freeLanes s.tick)
    rw [← hout] at hstatus
    exact ⟨_, congrArg finish (readEncLen_failed hout), rfl, hstatus, (encCall_same r 8 s).record _,
      ⟨rfl, rfl, rfl, rfl⟩, rfl⟩

/-! ### ENCODED_SIZE and ESIZE -/

theorem encodedSize_ne_zero (b : Byte) : encodedSize b ≠ 0 := by
  have := encodedSize_cases b
  omega

theorem readDecLen_length {s : State} {n : Nat} (h : s.decOut.len.toNat = n) (hn : n ≠ 0) :
    readDecLen s = (s, .length n) := by
  have hnz : s.decOut.len ≠ 0#4 := fun h0 => hn (by rw [← h, h0]; rfl)
  rw [readDecLen, if_neg hnz, h]

/-- A decoder call that is shown one byte drives the length of the item it begins, ok or not (R90). -/
theorem decCall_byte_len (b : Byte) (s : State) :
    (decCall (showBytes [b] s) s).decOut.len.toNat = encodedSize b := by
  rw [decCall_decOut]
  rcases decEval_cases (showBytes [b] s) (Config.freeValue s.tick) with ⟨h, -⟩ | ⟨-, h, -⟩ | ⟨-, -, -, e⟩ | ⟨-, -, e⟩
  · cases h
  · cases h
  · rw [e]; exact toNat_encodedSize4 b
  · rw [e]; exact toNat_encodedSize4 b

theorem readDecLen_byte (b : Byte) (s : State) : readDecLen (decCall (showBytes [b] s) s)
    = (decCall (showBytes [b] s) s, .length (encodedSize b)) :=
  readDecLen_length (decCall_byte_len b s) (encodedSize_ne_zero b)

/-- With a byte unread, ESIZE is shown that byte and reads its length. -/
theorem esizeOp_byte {s : State} {b : Byte} (h : s.rdPos < s.wrPos) (hb : s.buf.get s.rdPos = some b) :
    esizeOp s = .ok (decCall (showBytes [b] s) s, .length (encodedSize b)) := by
  have hone : min 1 (unreadCount s) = [b].length := by
    rw [unreadCount, List.length_singleton]
    omega
  have hread : nextBytes (min 1 (unreadCount s)) s = .ok [b] := by
    rw [hone]
    refine memRead_ok _ _ [b] _ fun k hk => ?_
    obtain rfl : k = 0 := by simpa using hk
    exact hb
  rw [esizeOp, hread]
  exact congrArg Except.ok (readDecLen_byte b s)

theorem decCall_empty (s : State) :
    (decCall (showBytes [] s) s).decOut = .failed .io 0 (Config.freeValue s.tick) :=
  (decCall_decOut _ _).trans (decEval_empty _ _ rfl rfl)

/-- With nothing unread, ESIZE is shown no byte and reports Io. -/
theorem esizeOp_empty {s : State} (h : s.wrPos ≤ s.rdPos) :
    esizeOp s = .ok (decCall (showBytes [] s) s, .err .io) := by
  have hread : nextBytes (min 1 (unreadCount s)) s = .ok [] := by
    rw [unreadCount, Nat.sub_eq_zero_of_le h]
    rfl
  rw [esizeOp, hread]
  simp [readDecLen, decCall_empty, DecOut.failed]

/-- Settles O40: the length is read off one byte, and with no byte it is 0 and the error Io. -/
theorem encodedSizeReadsTheTag : Obligations.EncodedSizeReadsTheTag := by
  refine ⟨fun s b => ?_, fun s b h hb => ?_, fun s h => ?_⟩
  · exact ⟨_, congrArg finish (readDecLen_byte b s), rfl, rfl, decCall_byte_len b s, (decCall_same _ s).record _,
      ⟨rfl, rfl, rfl, rfl⟩, rfl⟩
  · exact ⟨_, congrArg finishOr (esizeOp_byte h hb), decShown_of_decIn (show [b].length ≤ 8 by simp) rfl,
      decCall_byte_len b s, (decCall_same _ s).record _, ⟨rfl, rfl, rfl, rfl⟩, rfl⟩
  · have hstatus := DecOut.failed_status .io (Nat.zero_le 8) (Config.freeValue s.tick)
    rw [← decCall_empty s] at hstatus
    exact ⟨_, congrArg finishOr (esizeOp_empty h), decShown_of_decIn (show [].length ≤ 8 by simp) rfl, hstatus,
      (decCall_same _ s).record _, ⟨rfl, rfl, rfl, rfl⟩, rfl⟩

/-! ### SKIP -/

/-- SKIP with the whole item unread: the length that ESIZE reads is stepped over. -/
theorem skipOp_item {s : State} {b : Byte} (hb : s.buf.get s.rdPos = some b)
    (hle : encodedSize b ≤ s.wrPos - s.rdPos) :
    skipOp s
      = .ok ({ decCall (showBytes [b] s) s with rdPos := s.rdPos + encodedSize b }, .length (encodedSize b)) := by
  have := encodedSize_cases b
  simp only [skipOp, esizeOp_byte (by omega) hb]
  exact if_pos hle

/-- SKIP with a part of the item unread. -/
theorem skipOp_short {s : State} {b : Byte} (h : s.rdPos < s.wrPos) (hb : s.buf.get s.rdPos = some b)
    (hlt : s.wrPos - s.rdPos < encodedSize b) : skipOp s = .ok (decCall (showBytes [b] s) s, .err .io) := by
  simp only [skipOp, esizeOp_byte h hb]
  exact if_neg (Nat.not_le.mpr hlt)

theorem skipOp_empty {s : State} (h : s.wrPos ≤ s.rdPos) :
    skipOp s = .ok (decCall (showBytes [] s) s, .err .io) := by
  simp only [skipOp, esizeOp_empty h]

/-- Settles O48: the three cases of `skipOp` on the state without the line. -/
theorem skipStepsOverAnItem : Obligations.SkipStepsOverAnItem := by
  have runs : ∀ (s u : State) (r : Result) (rest : List Line), s.script = .skip :: rest →
      skipOp { s with script := rest } = .ok (u, r) → step s = .next (record (.one r) u) := fun s u r rest hscript e =>
    (stepRunsTheNextLine.2.1 s rest hscript).trans (congrArg finishOr e)
  refine ⟨fun s b rest hscript hb hle => ?_, fun s b rest hscript h hb hlt => ?_, fun s rest hscript h => ?_⟩
  · exact ⟨_, runs s _ _ rest hscript (skipOp_item hb hle), ⟨rfl, rfl, rfl, rfl, rfl⟩, ⟨rfl, rfl, rfl, rfl⟩, rfl⟩
  · exact ⟨_, runs s _ _ rest hscript (skipOp_short h hb hlt), (decCall_same _ _).record _, ⟨rfl, rfl, rfl, rfl⟩, rfl⟩
  · exact ⟨_, runs s _ _ rest hscript (skipOp_empty h), (decCall_same _ _).record _, ⟨rfl, rfl, rfl, rfl⟩, rfl⟩

end Sys2Proof.Machine

namespace Sys2Proof.Machine

/-! ### UNTIL_EMPTY -/

/-- The result of a loop's line that read the whole item at the read position, which begins with `b` (R52): its length
(SKIP), or the number of its bytes without the tag and their count (DEC). -/
def ReadsItem (s : State) (b : Byte) : LoopOp → Result → Prop
  | .skip, r => r = .length (encodedSize b)
  | .dec, r => ∃ bs w, bs.length = encodedSize b ∧ (∀ j, j < bs.length → s.buf.get (s.rdPos + j) = bs[j]?) ∧
      r = .decoded w (encodedSize b) ∧ w.toNat = fromBe bs % 2 ^ (8 * encodedSize b - 2)

theorem ReadsItem.not_err {s : State} {b : Byte} {k : LoopOp} {r : Result} (h : ReadsItem s b k r) :
    r.isErr = false := by
  cases k with
  | skip => rw [show r = _ from h]; rfl
  | dec =>
    obtain ⟨bs, w, -, -, rfl, -⟩ := h
    rfl

/-- One repetition with the first unread byte `b`: it fails and moves nothing, or it reads the item. -/
inductive Repeats (k : LoopOp) (b : Byte) (r : Result) (s t : State) : Prop where
  | short (hlt : s.wrPos - s.rdPos < encodedSize b) (hr : r = .err .io) (h : HarnessSame s t)
  | item (hle : encodedSize b ≤ s.wrPos - s.rdPos) (hr : ReadsItem s b k r) (h : HarnessRead (encodedSize b) s t)

theorem Repeats.frame {k : LoopOp} {b : Byte} {r : Result} {s t : State} (h : Repeats k b r s t) :
    t.cap = s.cap ∧ t.buf = s.buf ∧ t.wrPos = s.wrPos ∧ t.script = s.script := by
  rcases h with ⟨-, -, h⟩ | ⟨-, -, h⟩ <;> exact ⟨h.cap, h.buf, h.wrPos, h.script⟩

theorem Repeats.of_short {k : LoopOp} {b : Byte} {r : Result} {s t : State} (h : Repeats k b r s t)
    (hlt : s.wrPos - s.rdPos < encodedSize b) : r = .err .io ∧ t.rdPos = s.rdPos := by
  rcases h with ⟨-, hr, h⟩ | ⟨hle, -, -⟩
  · exact ⟨hr, h.rdPos⟩
  · omega

theorem Repeats.of_item {k : LoopOp} {b : Byte} {r : Result} {s t : State} (h : Repeats k b r s t)
    (hle : encodedSize b ≤ s.wrPos - s.rdPos) : t.rdPos = s.rdPos + encodedSize b ∧ ReadsItem s b k r := by
  rcases h with ⟨hlt, -, -⟩ | ⟨-, hr, h⟩
  · omega
  · exact ⟨h.rdPos, hr⟩

/-- The only error of a repetition is Io. -/
theorem Repeats.isErr_iff {k : LoopOp} {b : Byte} {r : Result} {s t : State} (h : Repeats k b r s t) :
    r.isErr = true ↔ r = .err .io := by
  rcases h with ⟨-, rfl, -⟩ | ⟨-, hr, -⟩
  · exact iff_of_true rfl rfl
  · have hok := hr.not_err
    exact ⟨fun he => by simp [hok] at he, by rintro rfl; cases hok⟩

theorem HarnessOk.window {s : State} (h : HarnessOk s) : ∃ bs, Window s bs := by
  obtain ⟨bs, hbs⟩ := h.nextBytes (sourceAvail_le_unread s)
  obtain ⟨hlen, hget⟩ := memRead_inv _ _ _ _ _ hbs
  exact ⟨bs, hlen, fun k hk => hget k (hlen ▸ hk)⟩

/-- A legal harness with unread bytes has a window with a first byte. -/
theorem HarnessOk.window_cons {s : State} (h : HarnessOk s) (hunread : s.rdPos < s.wrPos) :
    ∃ b tl, Window s (b :: tl) ∧ s.buf.get s.rdPos = some b := by
  obtain ⟨bs, hwindow⟩ := h.window
  cases bs with
  | nil =>
    have hlen := hwindow.1
    simp only [sourceAvail, unreadCount, List.length_nil] at hlen
    omega
  | cons b tl => exact ⟨b, tl, hwindow, hwindow.2 0 (by simp)⟩

/-- A window shows a whole item exactly when the stream has a whole item unread: no item is longer than a window. -/
theorem Window.encodedSize_le_iff {s : State} {b : Byte} {tl : List Byte} (h : Window s (b :: tl)) :
    encodedSize b ≤ tl.length + 1 ↔ encodedSize b ≤ s.wrPos - s.rdPos := by
  have hlen := h.1
  have := encodedSize_le b
  simp only [sourceAvail, unreadCount, List.length_cons] at hlen
  omega

/-- The first bytes of a window stand in the stream. -/
theorem Window.get_take {s : State} {bs : List Byte} (h : Window s bs) (n j : Nat) (hj : j < (bs.take n).length) :
    s.buf.get (s.rdPos + j) = (bs.take n)[j]? := by
  rw [List.length_take] at hj
  rw [h.2 j (by omega), List.getElem?_take_of_lt (by omega)]

theorem execDec_repeats {s : State} {b : Byte} {tl : List Byte} (h : Window s (b :: tl)) :
    ∃ t r, execDec s = .next t ∧ Logged r s t ∧ Repeats .dec b r s t := by
  rcases Nat.lt_or_ge (s.wrPos - s.rdPos) (encodedSize b) with hlt | hge
  · have hshort : tl.length + 1 < encodedSize b := Nat.not_le.mp (mt h.encodedSize_le_iff.mp (Nat.not_le.mpr hlt))
    obtain ⟨t, hruns, -, -, hsame, -, hlogged⟩ := failedDecChangesNothing.2 s b tl h hshort
    exact ⟨t, _, hruns, hlogged, .short hlt rfl hsame⟩
  · have hle := h.encodedSize_le_iff.mpr hge
    obtain ⟨t, hruns, -, -, hvalue, hread, -, hlogged⟩ := decReadsTheNextItem s b tl h hle
    have hcons : b :: tl.take (encodedSize b - 1) = (b :: tl).take (encodedSize b) := by
      rw [List.take_cons (Nat.pos_of_ne_zero (encodedSize_ne_zero b))]
    rw [hcons] at hvalue
    have hlen : ((b :: tl).take (encodedSize b)).length = encodedSize b := List.length_take_of_le hle
    exact ⟨t, _, hruns, hlogged, .item hge ⟨_, _, hlen, h.get_take _, rfl, hvalue⟩ hread⟩

theorem runSkip_repeats {s : State} {b : Byte} (hunread : s.rdPos < s.wrPos) (hb : s.buf.get s.rdPos = some b) :
    ∃ t r, runSkip s = .next t ∧ Logged r s t ∧ Repeats .skip b r s t := by
  rcases Nat.lt_or_ge (s.wrPos - s.rdPos) (encodedSize b) with hlt | hge
  · exact ⟨_, _, congrArg finishOr (skipOp_short hunread hb hlt), rfl, .short hlt rfl ((decCall_same _ s).record _)⟩
  · exact ⟨_, _, congrArg finishOr (skipOp_item hb hge), rfl, .item hge rfl ⟨rfl, rfl, rfl, rfl, rfl⟩⟩

/-- One repetition of either line, in a legal harness with a byte unread. -/
theorem loopBody_repeats {s : State} (h : HarnessOk s) (hunread : s.rdPos < s.wrPos) (k : LoopOp) :
    ∃ b u r, s.buf.get s.rdPos = some b ∧ loopBody k s = .ok (u, r) ∧ u.results = s.results ∧
      Repeats k b r s (record (.one r) u) := by
  obtain ⟨b, tl, hwindow, hb⟩ := h.window_cons hunread
  obtain ⟨t, r, hruns, hlogged, hrep⟩ :
      ∃ t r, finishOr (loopBody k s) = .next t ∧ Logged r s t ∧ Repeats k b r s t := by
    cases k with
    | dec => exact execDec_repeats hwindow
    | skip => exact runSkip_repeats hunread hb
  obtain ⟨u, q, hbody, rfl⟩ := finishOr_next hruns
  have hresults := (loopBody_effect hbody).results
  obtain rfl : q = r := by
    rw [Logged, record_results, hresults] at hlogged
    simpa using hlogged
  exact ⟨b, u, q, hb, hbody, hresults, hrep⟩

theorem unreadCount_eq_zero {s : State} : unreadCount s = 0 ↔ s.wrPos ≤ s.rdPos := Nat.sub_eq_zero_iff_le

theorem unreadCount_ne_zero {s : State} (h : s.rdPos < s.wrPos) : ¬ unreadCount s = 0 := Nat.sub_ne_zero_of_lt h

/-- With nothing unread the loop ends, without a call. -/
theorem runLoop_empty {s : State} (k : LoopOp) (sofar : List Result) (h : s.wrPos ≤ s.rdPos) :
    runLoop k sofar s = .next (record (.many sofar) (noCall s)) :=
  if_pos (unreadCount_eq_zero.mpr h)

/-- After an error, or with nothing left unread, the loop ends with the results it has. -/
theorem runLoop_ends {k : LoopOp} {s u : State} {r : Result} (sofar : List Result)
    (hbody : loopBody k s = .ok (u, r)) (hunread : s.rdPos < s.wrPos) (h : r.isErr = true ∨ u.wrPos ≤ u.rdPos) :
    runLoop k sofar s = .next (record (.many (sofar ++ [r])) u) := by
  have hend : (r.isErr || decide (unreadCount u = 0)) = true := by simpa [unreadCount_eq_zero] using h
  rw [runLoop, if_neg (unreadCount_ne_zero hunread), hbody]
  exact if_pos hend

/-- Otherwise the line goes back to the script. -/
theorem runLoop_goes_on {k : LoopOp} {s u : State} {r : Result} (sofar : List Result)
    (hbody : loopBody k s = .ok (u, r)) (hunread : s.rdPos < s.wrPos) (hr : r.isErr = false) (hu : u.rdPos < u.wrPos) :
    runLoop k sofar s = .next { u with script := .untilEmpty k (sofar ++ [r]) :: u.script } := by
  have hend : ¬ (r.isErr || decide (unreadCount u = 0)) = true := by simpa [unreadCount_eq_zero, hr] using hu
  rw [runLoop, if_neg (unreadCount_ne_zero hunread), hbody]
  exact if_neg hend

/-- The line that a loop names is its body, performed once. -/
theorem step_loopLine (s : State) (k : LoopOp) (rest : List Line) :
    step { s with script := k.line :: rest } = finishOr (loopBody k { s with script := rest }) := by
  cases k <;> rfl

/-- Settles O49: the loop's body is the named line's own operation, whose two cases are `Repeats`. -/
theorem untilEmptyRepeatsItsLine : Obligations.UntilEmptyRepeatsItsLine := by
  refine ⟨fun s k sofar rest hscript h => ?_, fun s k sofar rest hinv hscript hunread => ?_⟩
  · have hstep := stepRunsTheNextLine.2.2 s k sofar rest hscript
    exact ⟨_, hstep.trans (runLoop_empty k sofar h), (noCall_same _).record _, rfl⟩
  · have hstep := stepRunsTheNextLine.2.2 s k sofar rest hscript
    obtain ⟨b, u, r, hb, hbody, (hresults : u.results = s.results), hrep⟩ :=
      loopBody_repeats (hinv.setScript rest).harness hunread k
    have hline : step { s with script := k.line :: rest } = .next (record (.one r) u) := by
      rw [step_loopLine, hbody]
      rfl
    have hlogged : Logged r s (record (.one r) u) := by
      rw [Logged, record_results, hresults]
    obtain ⟨hcap, hbuf, hwr, (hrest : u.script = rest)⟩ := hrep.frame
    refine ⟨b, _, r, hb, hline, hlogged, hcap, hbuf, hwr, hrest, hrep.of_short, fun hle => ?_, fun hend => ?_,
      fun hr hmore => ?_⟩
    · obtain ⟨hrd, hitem⟩ := hrep.of_item hle
      exact ⟨hrd, by rintro rfl; exact hitem, by rintro rfl; exact hitem⟩
    · rw [hstep, runLoop_ends sofar hbody hunread (hend.imp hrep.isErr_iff.mpr le_of_eq), record, hresults]
      rfl
    · have hok : r.isErr = false := Bool.eq_false_iff.mpr (mt hrep.isErr_iff.mp hr)
      rw [hstep, runLoop_goes_on sofar hbody hunread hok hmore]
      simp only [record, hrest, hresults]

end Sys2Proof.Machine

/-! The constructions of a VarInt and the conversion back: one encoder call with room 8, or one decoder call on an item
of format W8. -/

namespace Sys2Proof.Machine

/-! ### The constructions -/

/-- With room 8 an encoder call reports Range exactly when the raw value is no VarInt: it never reports Range for want
of room (R63). -/
theorem constructPorts_range_iff (r : Word64) (s : State) :
    (constructPorts r s).encOut.err = 1#2 ↔ 2 ^ 62 ≤ r.toNat := by
  rw [constructPorts, encCall_encOut]
  rcases encEval_cases ⟨true, r, BitVec.ofNat 4 8⟩ (Config.freeLanes s.tick) with
    ⟨h, -⟩ | ⟨-, hge, e⟩ | ⟨v, -, rfl, -, e⟩ | ⟨v, -, rfl, -, e⟩
  · cases h
  · rw [e]
    exact iff_of_true rfl hge
  · rw [e, varintWord_toNat]
    exact iff_of_false (by decide : ErrKind.io.code ≠ 1#2) (Nat.not_le.mpr v.isLt)
  · rw [e, varintWord_toNat]
    exact iff_of_false (by decide : 0#2 ≠ 1#2) (Nat.not_le.mpr v.isLt)

/-- The construction presented as `r` with result `res` leads to `t`: the value shown, when Range is reported, the
harness unchanged, the decoder not called. -/
structure Constructs (r : Word64) (res : Result) (s t : State) : Prop where
  runs : finish (constructPorts r s, res) = .next t
  shown : EncShown r 8 t
  range_iff : t.encOut.err = 1#2 ↔ 2 ^ 62 ≤ r.toNat
  same : HarnessSame s t
  off : DecoderOff s t
  logged : Logged res s t

theorem constructs (r : Word64) (res : Result) (s : State) :
    Constructs r res s (record (.one res) (constructPorts r s)) where
  runs := rfl
  shown := rfl
  range_iff := constructPorts_range_iff r s
  same := (encCall_same r 8 s).record _
  off := ⟨rfl, rfl, rfl, rfl⟩
  logged := rfl

theorem Constructs.no_range {r : Word64} {res : Result} {s t : State} (h : Constructs r res s t)
    (hr : r.toNat < 2 ^ 62) : t.encOut.err ≠ 1#2 :=
  mt h.range_iff.mp (Nat.not_le.mpr hr)

theorem Constructs.value {r : Word64} {res : Result} {s t : State} (h : Constructs r res s t) : t.encIn.value = r :=
  congrArg EncIn.value h.shown

theorem Constructs.valid {r : Word64} {res : Result} {s t : State} (h : Constructs r res s t) : t.encIn.valid = true :=
  congrArg EncIn.valid h.shown

/-- An operand of 62 bits or less, zero-extended, passes the range check (R64 to R66). -/
theorem narrow_constructs {n : Nat} (x : BitVec n) (hn : n ≤ 62) (s : State) :
    ∃ t v, finish (constructPorts (x.setWidth 64) s, .varint (x.setWidth 62)) = .next t ∧ v.toNat = x.toNat ∧
      t.encIn.value.toNat = x.toNat ∧ t.encIn.valid = true ∧ t.encOut.err ≠ 1#2 ∧ HarnessSame s t ∧ DecoderOff s t ∧
      Logged (.varint v) s t := by
  have hx : (x.setWidth 64).toNat = x.toNat := setWidth64_toNat x (by omega)
  have hlt : (x.setWidth 64).toNat < 2 ^ 62 := by
    rw [hx]
    exact x.isLt.trans_le (Nat.pow_le_pow_right (by norm_num) hn)
  have h := constructs (x.setWidth 64) (.varint (x.setWidth 62)) s
  exact ⟨_, x.setWidth 62, h.runs, setWidth62_toNat x hn, hx, h.valid, h.no_range hlt, h.same, h.off, h.logged⟩

/-- Settles O41: each operand is narrower than 62 bits, so its zero extension passes the range check. -/
theorem narrowConstructionsAlwaysSucceed : Obligations.NarrowConstructionsAlwaysSucceed :=
  fun s => ⟨fun b => narrow_constructs b (by norm_num) s, fun h => narrow_constructs h (by norm_num) s,
    fun w => narrow_constructs w (by norm_num) s⟩

theorem checked_of_lt {r : Word64} (h : r.toNat < 2 ^ 62) : checked r = .varint (r.extractLsb' 0 62) := by
  rw [checked, toVarInt_of_lt h]

theorem checked_of_ge {r : Word64} (h : 2 ^ 62 ≤ r.toNat) : checked r = .err .range := by
  rw [checked, toVarInt_of_ge h]

/-- TRY_FROM_U64 is the construction with the checked result. -/
theorem tryFromU64_constructs (r : Word64) (s : State) :
    ∃ t, exec (.tryFromU64 r) s = .next t ∧ Constructs r (checked r) s t :=
  ⟨_, rfl, constructs r (checked r) s⟩

/-- The encoder's outputs for a raw value out of range. -/
theorem constructPorts_status_of_ge {r : Word64} (h : 2 ^ 62 ≤ r.toNat) (s : State) :
    EncStatus false 1#2 0 (constructPorts r s).encOut := by
  rw [constructPorts, encCall_encOut, encEval_range _ _ rfl h]
  exact EncOut.failed_status .range (Nat.zero_le 8) _

/-- Settles O42: the check passes exactly below 2^62, where the low 62 bits are the whole value. -/
theorem tryFromU64NeverTruncates : Obligations.TryFromU64NeverTruncates := by
  refine ⟨fun s r hlt => ?_, fun s r hge => ?_⟩
  · obtain ⟨t, hexec, h⟩ := tryFromU64_constructs r s
    exact ⟨t, _, hexec, toNat_low62 hlt, h.value, h.no_range hlt, h.same, h.off, checked_of_lt hlt ▸ h.logged⟩
  · have h := constructs r (checked r) s
    exact ⟨_, h.runs, h.value, constructPorts_status_of_ge hge s, h.same, h.off, checked_of_ge hge ▸ h.logged⟩

/-- A platform word that fits its width passes the row's check of the operand, which leaves TRY_FROM_U64. -/
theorem exec_tryFromUsize {width : Nat} {w : Word64} (hwidth : width ≤ 64) (hw : w.toNat < 2 ^ width) (s : State) :
    exec (.tryFromUsize width w) s = exec (.tryFromU64 w) s := by
  have hwf : (Instr.tryFromUsize width w).wf = true := by simp [Instr.wf, hwidth, hw]
  exact if_pos hwf

/-- Settles O43: the operation is TRY_FROM_U64, and a word of 62 bits or less is below 2^62. -/
theorem tryFromUsizeIsTryFromU64 : Obligations.TryFromUsizeIsTryFromU64 := by
  intro s width w hwidth hw
  have heq := exec_tryFromUsize hwidth hw s
  obtain ⟨t, hexec, h⟩ := tryFromU64_constructs w s
  refine ⟨heq, t, heq.trans hexec, h.range_iff, fun h62 => ?_, h.same, h.off⟩
  have hlt : w.toNat < 2 ^ 62 := hw.trans_le (Nat.pow_le_pow_right (by norm_num) h62)
  exact ⟨_, toNat_low62 hlt, checked_of_lt hlt ▸ h.logged⟩

/-! ### The conversion back -/

/-- The decoder, shown an item of format W8, drives the item's value field, zero-extended (R69, R95). -/
theorem decCall_w8 (x : VarInt) (s : State) :
    (decCall (showBytes (w8 x) s) s).decOut = .done (varintWord x) 8 := by
  have hraw : rawValue ((Lanes.fill (w8 x) (Config.floatLanes s.tick)).toList.take 8) = x.toNat := by
    rw [show 8 = (w8 x).length from rfl, take_fill (w8 x) _ (Nat.le_refl 8), (IsItem.t8 x).rawValue]
  exact (decCall_decOut _ s).trans
    (decEval_assembles _ (by norm_num) (encodedSize_tagged 0b11#2 _) (Nat.le_refl 8) hraw)

/-- The two bits above a VarInt are 0 (R69). -/
theorem varintWord_topBits (x : VarInt) : (varintWord x).extractLsb' 62 2 = 0#2 := by
  rw [topBits_eq_zero (varintWord x) 62 2 rfl, varintWord_toNat]
  exact x.isLt

/-- Settles O44: the word driven is the VarInt's own, which the range check and the low 62 bits undo. -/
theorem intoU64IsLossless : Obligations.IntoU64IsLossless := by
  refine ⟨fun s x => ?_, toVarInt_varintWord, fun r h => ⟨_, toVarInt_of_lt h, (eq_varintWord h).symm⟩⟩
  have hout := decCall_w8 x s
  exact ⟨_, varintWord x, rfl, varintWord_toNat x, congrArg DecOut.value hout, congrArg DecOut.ok hout,
    varintWord_topBits x, (decCall_same _ s).record _, ⟨rfl, rfl, rfl, rfl⟩, rfl⟩

end Sys2Proof.Machine

/-! The encoder: the length it selects, the status it drives, and what tells two encodings apart. -/

namespace Sys2Proof.Machine

/-! ### The selected length -/

/-- A tier's tag is the logarithm of its length (R45). -/
theorem two_pow_tag (t : Tier) : 2 ^ t.tag = t.len := by
  cases t <;> rfl

theorem size_pos (v : VarInt) : 0 < size v := by
  have := size_cases v
  omega

theorem size_le_eight (v : VarInt) : size v ≤ 8 := by
  have := size_cases v
  omega

/-- The four half-open ranges (R73). -/
theorem size_eq_ite (v : VarInt) :
    size v = if v.toNat < 2 ^ 6 then 1 else if v.toNat < 2 ^ 14 then 2 else if v.toNat < 2 ^ 30 then 4 else 8 := by
  rw [size, tierOf_eq]
  split_ifs <;> rfl

/-- `n` is the length of a tier: a length is selected within `n` bytes exactly when the value fits `n` bytes (R74). -/
theorem size_le_iff (v : VarInt) {n : Nat} (hn : n = 1 ∨ n = 2 ∨ n = 4 ∨ n = 8) :
    size v ≤ n ↔ v.toNat < 2 ^ (8 * n - 2) := by
  constructor
  · intro hle
    calc v.toNat < 2 ^ (8 * size v - 2) := lt_of_tierOf v
      _ ≤ 2 ^ (8 * n - 2) := Nat.pow_le_pow_right (by norm_num) (by omega)
  · intro hlt
    rw [size_eq_ite]
    rcases hn with rfl | rfl | rfl | rfl <;> split_ifs <;> omega

/-- The length is monotone: a value below `v` fits the length of `v` (R73). -/
theorem size_mono {u v : VarInt} (h : u.toNat ≤ v.toNat) : size u ≤ size v :=
  (size_le_iff u (size_cases v)).mpr (h.trans_lt (lt_of_tierOf v))

/-- Settles O2: each high-bit test says that the value fits the tier's length. -/
theorem selectorPicksTheLeastTier : Obligations.SelectorPicksTheLeastTier := by
  intro v
  have h1 : v.extractLsb' 6 56 = 0#56 ↔ size v ≤ 1 :=
    (slice_eq_zero v 6 56 rfl).trans (size_le_iff v (n := 1) (by simp)).symm
  have h2 : v.extractLsb' 14 48 = 0#48 ↔ size v ≤ 2 :=
    (slice_eq_zero v 14 48 rfl).trans (size_le_iff v (n := 2) (by simp)).symm
  have h4 : v.extractLsb' 30 32 = 0#32 ↔ size v ≤ 4 :=
    (slice_eq_zero v 30 32 rfl).trans (size_le_iff v (n := 4) (by simp)).symm
  have hsize := size_cases v
  rw [ne_eq, ne_eq, ne_eq, h1, h2, h4]
  exact ⟨by omega, by omega, by omega, by omega, two_pow_tag _, lt_of_tierOf v, fun n hn => (size_le_iff v hn).mpr⟩

/-! ### The status of a call on a VarInt -/

theorem encEval_io_status {v : VarInt} {room : BitVec 4} (free : Lanes) (h : room.toNat < size v) :
    EncStatus false 2#2 (size v) (encEval ⟨true, varintWord v, room⟩ free) := by
  rw [encEval_io ⟨true, varintWord v, room⟩ free v rfl rfl h]
  exact EncOut.failed_status .io (size_le_eight v) free

theorem encEval_ok_status {v : VarInt} {room : BitVec 4} (free : Lanes) (h : size v ≤ room.toNat) :
    EncStatus true 0#2 (size v) (encEval ⟨true, varintWord v, room⟩ free) := by
  rw [encEval_ok ⟨true, varintWord v, room⟩ free v rfl rfl h, ← encodeBytes_length v]
  exact EncOut.done_status (encodeBytes_length_le v)

/-- Settles O1: with and without room the length output is the size, which the four ranges fix. -/
theorem sizeFollowsTheFourRanges : Obligations.SizeFollowsTheFourRanges := by
  refine ⟨fun v => ⟨size_t1, size_t2, size_t4, size_t8⟩, fun v room free => ?_, fun r room free h => ?_,
    fun u v => size_mono⟩
  · rcases Nat.lt_or_ge room.toNat (size v) with h | h
    · exact (encEval_io_status free h).len
    · exact (encEval_ok_status free h).len
  · rw [encEval_range ⟨true, r, room⟩ free rfl h]
    exact ⟨rfl, rfl⟩

/-- Settles O4: a length is at least 1 and at most 8, so room 0 never suffices and room 8 always does. -/
theorem sinkErrorTellsTheWantedLength : Obligations.SinkErrorTellsTheWantedLength := by
  refine fun v room free => ⟨encEval_io_status free, encEval_ok_status free, fun h8 => ?_, fun h0 => ?_⟩
  · exact (encEval_ok_status free ((size_le_eight v).trans h8)).err
  · exact (encEval_io_status free (by rw [h0]; exact size_pos v)).err

/-! ### The bytes of an encoding -/

/-- An encoder call is ok only with the encoding of its value on the lanes. -/
theorem encEval_of_ok {i : EncIn} {free : Lanes} (hok : (encEval i free).ok = true) :
    ∃ v, i.value = varintWord v ∧ encEval i free = .done (encodeBytes v) := by
  rcases encEval_cases i free with ⟨-, e⟩ | ⟨-, -, e⟩ | ⟨v, -, -, -, e⟩ | ⟨v, -, hw, -, e⟩
  · rw [e] at hok; cases hok
  · rw [e] at hok; cases hok
  · rw [e] at hok; cases hok
  · exact ⟨v, hw, e⟩

/-- The first byte of an encoding announces its length (R48, R84). -/
theorem encodeBytes_head (v : VarInt) : ∃ b rest, encodeBytes v = b :: rest ∧ encodedSize b = size v := by
  obtain ⟨i, hi⟩ := encodeBytes_isItem v
  obtain ⟨b, rest, hcons, hsize⟩ := hi.head
  exact ⟨b, rest, hcons, hsize.trans (encodeBytes_length v)⟩

/-- Settles O5: an ok call drives the encoding of its value, in the least tier that holds it. -/
theorem encodingsAreCanonical : Obligations.EncodingsAreCanonical := by
  intro i free _ hok
  obtain ⟨v, hvalue, hdone⟩ := encEval_of_ok hok
  obtain ⟨b, rest, hcons, hsize⟩ := encodeBytes_head v
  have hle := encodeBytes_length_le v
  rw [hdone]
  refine ⟨v, hvalue, ?_, ?_, ?_, .inr fun n hn hlt => ?_⟩
  · rw [← encodeBytes_length v]
    exact (EncOut.done_status hle).len
  · rw [taken_done _ hle, encodeBytes_length]
  · rw [hcons, ← hsize]
    exact (encodedSize_eq b).symm
  · exact Nat.not_lt.mp ((size_le_iff v hn).not.mp (Nat.not_le.mpr hlt))

theorem encodeBytes_injective {u v : VarInt} (h : encodeBytes u = encodeBytes v) : u = v := by
  obtain ⟨i, hu⟩ := encodeBytes_isItem u
  obtain ⟨j, hv⟩ := encodeBytes_isItem v
  exact BitVec.eq_of_toNat_eq (by rw [← hu.rawValue, ← hv.rawValue, h])

/-- Settles O7: decoding the common string gives one item and one rest. -/
theorem encodingsArePrefixFree : Obligations.EncodingsArePrefixFree := by
  intro u v rest rest' h
  obtain ⟨i, hu⟩ := encodeBytes_isItem u
  obtain ⟨j, hv⟩ := encodeBytes_isItem v
  have hdecode := hu.decode_append rest
  rw [h, hv.decode_append rest'] at hdecode
  obtain ⟨-, rfl⟩ : j = i ∧ rest' = rest := by simpa using hdecode
  exact ⟨encodeBytes_injective (List.append_cancel_right h), rfl⟩

/-! ### The order of encodings -/

/-- Byte strings of one length compare lexicographically as the numbers they read as. -/
theorem lex_of_fromBe_lt {as bs : List Byte} (hlen : as.length = bs.length) (h : fromBe as < fromBe bs) :
    List.Lex (fun a b : Byte => a.toNat < b.toNat) as bs := by
  induction as generalizing bs with
  | nil =>
    obtain rfl := List.length_eq_zero_iff.mp hlen.symm
    exact absurd h (Nat.lt_irrefl _)
  | cons a as ih =>
    obtain ⟨b, bs, rfl⟩ := List.exists_cons_of_length_eq_add_one hlen.symm
    have htail : as.length = bs.length := Nat.succ.inj hlen
    have hbs := fromBe_lt bs
    rw [fromBe, fromBe, htail] at h
    rcases Nat.lt_trichotomy a.toNat b.toNat with hlt | heq | hgt
    · exact .rel hlt
    · obtain rfl := BitVec.eq_of_toNat_eq heq
      exact .cons (ih htail (Nat.lt_of_add_lt_add_left h))
    · have := Nat.mul_le_mul_right (256 ^ bs.length) (Nat.succ_le_of_lt hgt)
      rw [Nat.succ_mul] at this
      omega

theorem packed_lt (t : Tier) (v : VarInt) (h : v.toNat < 2 ^ (8 * t.len - 2)) : packed t v < 256 ^ t.len := by
  rw [packed_eq_add t v h]
  cases t <;> simp only [Tier.tag, Tier.len] at h ⊢ <;> omega

/-- An encoding reads as the packed integer: the tag above the value (R47). -/
theorem fromBe_encodeBytes (v : VarInt) :
    fromBe (encodeBytes v) = (tierOf v).tag * 2 ^ (8 * size v - 2) + v.toNat := by
  have hfits := lt_of_tierOf v
  calc fromBe (encodeBytes v) = packed (tierOf v) v % 256 ^ size v := fromBe_be _ _
    _ = packed (tierOf v) v := Nat.mod_eq_of_lt (packed_lt _ v hfits)
    _ = (tierOf v).tag * 2 ^ (8 * size v - 2) + v.toNat := packed_eq_add _ v hfits

/-- Of two encodings the shorter comes first: its tag is the smaller. -/
theorem encodeBytes_lex_of_size_lt {u v : VarInt} (h : size u < size v) :
    List.Lex (fun a b : Byte => a.toNat < b.toNat) (encodeBytes u) (encodeBytes v) := by
  obtain ⟨b, bs, hu, hb⟩ := encodeBytes_head u
  obtain ⟨c, cs, hv, hc⟩ := encodeBytes_head v
  rw [← hb, ← hc, encodedSize_eq, encodedSize_eq, Nat.pow_lt_pow_iff_right (by norm_num)] at h
  rw [hu, hv]
  exact .rel (by omega)

/-- Two encodings of one length have one tag, so their numbers differ by the values. -/
theorem encodeBytes_lex_of_size_eq {u v : VarInt} (hsize : size u = size v) (h : u.toNat < v.toNat) :
    List.Lex (fun a b : Byte => a.toNat < b.toNat) (encodeBytes u) (encodeBytes v) := by
  have htag : (tierOf u).tag = (tierOf v).tag :=
    Nat.pow_right_injective (Nat.le_refl 2) ((two_pow_tag _).trans (hsize.trans (two_pow_tag _).symm))
  refine lex_of_fromBe_lt (by rw [encodeBytes_length, encodeBytes_length, hsize]) ?_
  rw [fromBe_encodeBytes, fromBe_encodeBytes, htag, hsize]
  exact Nat.add_lt_add_left h _

/-- Settles O8: a smaller value has a shorter encoding, or one of the same length and a smaller number. -/
theorem encodingsKeepTheOrder : Obligations.EncodingsKeepTheOrder := by
  intro u v h
  have hle : size u ≤ size v := size_mono h.le
  refine ⟨hle, ?_⟩
  rcases hle.lt_or_eq with hlt | heq
  · exact encodeBytes_lex_of_size_lt hlt
  · exact encodeBytes_lex_of_size_eq heq h

end Sys2Proof.Machine

/-! The decoder as a function of its ports: the item in its window, the status it drives, and the round trips with the
encoder. -/

namespace Sys2Proof.Machine

/-! ### The item in the window -/

/-- The window is longer than every item, so it begins with the one that lane 0 announces (R46, R50). -/
theorem window_isItem (l : Lanes) :
    ∃ i, ∃ v : VarInt, IsItem i (l.toList.take (encodedSize l.b0)) v.toNat := by
  obtain ⟨i, bs, m, tl, -, hi, hcat⟩ := decode_long l.b0 l.toList.tail (encodedSize_le l.b0)
  have hcat : l.toList = bs ++ tl := hcat
  have htake : l.toList.take (encodedSize l.b0) = bs := by
    rw [← hi.length_of_append hcat, hcat, List.take_left]
  have hm : m < 2 ^ 62 := by
    rw [← hi.rawValue, ← htake]
    exact rawWindow_lt l _
  exact ⟨i, BitVec.ofNat 62 m, by rwa [htake, BitVec.toNat_ofNat, Nat.mod_eq_of_lt hm]⟩

theorem window_length (l : Lanes) : (l.toList.take (encodedSize l.b0)).length = encodedSize l.b0 :=
  List.length_take_of_le (encodedSize_le l.b0)

/-- A call whose window begins with an item drives the item's value and length, whatever follows (R91, R101). -/
theorem decEval_of_isItem {i : Instr} {bs : List Byte} {m : Nat} (hi : IsItem i bs m) {v : VarInt} (hm : m = v.toNat)
    {d : DecIn} (free : Word64) (hvalid : d.valid = true) (havail : bs.length ≤ d.avail.toNat)
    (htake : d.lanes.toList.take bs.length = bs) : decEval d free = .done (varintWord v) bs.length := by
  obtain ⟨b, rest, hcons, hsize⟩ := hi.head
  have hb : d.lanes.b0 = b := by
    rw [hcons] at htake
    exact (List.cons.inj htake).1
  have hlen : encodedSize d.lanes.b0 = bs.length := by rw [hb, hsize]
  rw [decEval_ok d free hvalid (by rwa [hlen]), hlen, htake, hi.rawValue, hm, setWidth64_ofNat v (by norm_num)]
  rfl

/-- A decoder call is ok only with the value and the length of the item in its window. -/
theorem decEval_of_ok {d : DecIn} {free : Word64} (hok : (decEval d free).ok = true) :
    ∃ i, ∃ v : VarInt, IsItem i (d.lanes.toList.take (encodedSize d.lanes.b0)) v.toNat ∧
      decEval d free = .done (varintWord v) (encodedSize d.lanes.b0) := by
  rcases decEval_cases d free with ⟨-, e⟩ | ⟨-, -, e⟩ | ⟨-, -, -, e⟩ | ⟨hvalid, havail, -⟩
  · rw [e] at hok; cases hok
  · rw [e] at hok; cases hok
  · rw [e] at hok; cases hok
  · obtain ⟨i, v, hi⟩ := window_isItem d.lanes
    have hlen := window_length d.lanes
    have hdone := decEval_of_isItem hi rfl free hvalid (hlen.trans_le havail) (by rw [hlen])
    exact ⟨i, v, hi, hlen ▸ hdone⟩

theorem DecOut.done_status {n : Nat} (h : n ≤ 8) (value : Word64) : DecStatus true 0#2 n (.done value n) :=
  ⟨rfl, rfl, toNat_len4 h⟩

/-! ### Round trips -/

/-- Settles O19: an ok encoder call leaves its value's item on the lanes, which the decoder reads back. -/
theorem roundTripThroughThePorts : Obligations.RoundTripThroughThePorts := by
  intro e d free free' _ hok hvalid havail hlanes
  obtain ⟨v, hvalue, hdone⟩ := encEval_of_ok hok
  obtain ⟨i, hi⟩ := encodeBytes_isItem v
  have hle := encodeBytes_length_le v
  have hlen : (encEval e free).len.toNat = (encodeBytes v).length := by
    rw [hdone]
    exact (EncOut.done_status hle).len
  have hbytes : (encEval e free).lanes.toList.take (encEval e free).len.toNat = encodeBytes v := by
    rw [hdone]
    exact taken_done _ hle
  rw [hbytes, hlen] at hlanes
  rw [decEval_of_isItem hi rfl free' hvalid (hlen ▸ havail) hlanes, hdone, hvalue]
  exact ⟨rfl, rfl, rfl⟩

/-- Settles O20: the item read fits its length, so the selected size is no longer, and it is the encoding when that size
is its own. -/
theorem decodeThenEncodeIsCanonical : Obligations.DecodeThenEncodeIsCanonical := by
  intro d free hok
  obtain ⟨i, v, hi, hdone⟩ := decEval_of_ok hok
  have hwindow := window_length d.lanes
  have hlen : (decEval d free).len.toNat = encodedSize d.lanes.b0 := by
    rw [hdone]
    exact toNat_encodedSize4 _
  have hfits := hi.value_lt
  rw [hwindow] at hfits
  rw [hlen]
  refine ⟨v, congrArg DecOut.value hdone, (size_le_iff v (encodedSize_cases _)).mpr hfits, fun h => ?_, fun h => ?_⟩
  · rw [← encodeBytes_length v, h, hwindow]
  · exact hi.encodeBytes v rfl (h.symm.trans hwindow.symm)

/-- Settles O21: an encoding is an item, and an item's first byte carries the tag of its length. -/
theorem tagExtractionAgreesWithTheEncoder : Obligations.TagExtractionAgreesWithTheEncoder := encodeBytes_head

/-- A format's bytes on the first lanes, with just their count, decode to the value of the format's field. -/
theorem decEval_fill {i : Instr} {bs : List Byte} {m : Nat} (hi : IsItem i bs m) {v : VarInt} (hm : m = v.toNat)
    (o : Lanes) (free : Word64) :
    decEval ⟨true, Lanes.fill bs o, BitVec.ofNat 4 bs.length⟩ free = .done (varintWord v) bs.length := by
  have h8 : bs.length ≤ 8 := by
    have := hi.length_eq
    omega
  exact decEval_of_isItem hi hm free rfl (toNat_len4 h8).ge (take_fill bs o h8)

/-- A word that fits a width keeps its number there. -/
theorem toNat_setWidth_of_lt {w n : Nat} {x : BitVec w} (h : x.toNat < 2 ^ n) : (x.setWidth n).toNat = x.toNat := by
  rw [BitVec.toNat_setWidth, Nat.mod_eq_of_lt h]

/-- Settles O15: in each format the value field that holds `v` has the number of `v`. -/
theorem nonMinimalEncodingsDecode : Obligations.NonMinimalEncodingsDecode :=
  fun v o free =>
    ⟨fun h => decEval_fill (.t1 (v.setWidth 6)) (toNat_setWidth_of_lt h) o free,
      fun h => decEval_fill (.t2 (v.setWidth 14)) (toNat_setWidth_of_lt h) o free,
      fun h => decEval_fill (.t4 (v.setWidth 30)) (toNat_setWidth_of_lt h) o free,
      decEval_fill (.t8 v) rfl o free⟩

/-! ### The status and the range of a call -/

/-- Settles O11: the three ranges of the count are the three cases of R91 that can arise. -/
theorem decoderReportsShortReads : Obligations.DecoderReportsShortReads := by
  refine fun l avail free => ⟨fun h => ?_, fun h1 hlt => ?_, fun hle => ?_⟩
  · rw [decEval_empty ⟨true, l, avail⟩ free rfl h]
    exact DecOut.failed_status .io (Nat.zero_le 8) free
  · rw [decEval_short ⟨true, l, avail⟩ free rfl (Nat.pos_iff_ne_zero.mp h1) hlt]
    exact DecOut.failed_status .io (encodedSize_le l.b0) free
  · rw [decEval_ok ⟨true, l, avail⟩ free rfl hle]
    exact DecOut.done_status (encodedSize_le l.b0) _

/-- Settles O9: a range of first bytes is one tag, and a call with a byte is a short read or ok, with the length of that
byte. -/
theorem encodedSizeOfEveryFirstByte : Obligations.EncodedSizeOfEveryFirstByte := by
  refine ⟨fun b => ?_, fun l avail free h1 => ?_⟩
  · have hb := b.isLt
    exact ⟨fun h => encodedSize_of_tag 0 (by omega), fun h h' => encodedSize_of_tag 1 (by omega),
      fun h h' => encodedSize_of_tag 2 (by omega), fun h => encodedSize_of_tag 3 (by omega)⟩
  · obtain ⟨-, hshort, hok⟩ := decoderReportsShortReads l avail free
    rcases Nat.lt_or_ge avail.toNat (encodedSize l.b0) with hlt | hle
    · exact (hshort h1 hlt).len
    · exact (hok hle).len

/-- Settles O10: the reconstructed number is the value of the item in the window; the errors driven are 0 and 2. -/
theorem decoderNeverReportsRange : Obligations.DecoderNeverReportsRange := by
  refine ⟨fun l => ?_, fun d free => ?_⟩
  · obtain ⟨i, v, hi⟩ := window_isItem l
    have hfits := hi.value_lt
    rwa [← hi.rawValue, window_length] at hfits
  · have hnone : (0#2 : BitVec 2) ≠ 1#2 := by decide
    have hio : ErrKind.io.code ≠ 1#2 := by decide
    rcases decEval_cases d free with ⟨-, e⟩ | ⟨-, -, e⟩ | ⟨-, -, -, e⟩ | ⟨-, -, e⟩ <;> rw [e]
    · exact hnone
    · exact hio
    · exact hio
    · exact hnone

/-- Settles O14: the value driven is a VarInt's word, and an item's value fits its length. -/
theorem decodedValueFitsItsTier : Obligations.DecodedValueFitsItsTier := by
  intro d free hok
  obtain ⟨i, v, hi, hdone⟩ := decEval_of_ok hok
  have hfits := hi.value_lt
  rw [window_length, ← varintWord_toNat, ← toNat_encodedSize4] at hfits
  rw [hdone]
  exact ⟨varintWord_topBits v, hfits⟩

end Sys2Proof.Machine

/-! The precedence of the encoder's errors (R115). -/

namespace Sys2Proof.Machine

/-- The status of an encoder call on a raw value: Range is decided before the room is looked at (R63, R81, R115). -/
theorem encEval_raw_status (r : Word64) (room : BitVec 4) (free : Lanes) :
    (2 ^ 62 ≤ r.toNat ∧ EncStatus false 1#2 0 (encEval ⟨true, r, room⟩ free)) ∨
    (r.toNat < 2 ^ 62 ∧ room.toNat < size (r.extractLsb' 0 62) ∧
      EncStatus false 2#2 (size (r.extractLsb' 0 62)) (encEval ⟨true, r, room⟩ free)) ∨
    (r.toNat < 2 ^ 62 ∧ size (r.extractLsb' 0 62) ≤ room.toNat ∧
      EncStatus true 0#2 (size (r.extractLsb' 0 62)) (encEval ⟨true, r, room⟩ free)) := by
  rcases Nat.lt_or_ge r.toNat (2 ^ 62) with hlt | hge
  · have hw := eq_varintWord hlt
    generalize r.extractLsb' 0 62 = v at hw ⊢
    subst hw
    rcases Nat.lt_or_ge room.toNat (size v) with hshort | hroom
    · exact .inr (.inl ⟨hlt, hshort, encEval_io_status free hshort⟩)
    · exact .inr (.inr ⟨hlt, hroom, encEval_ok_status free hroom⟩)
  · rw [encEval_range ⟨true, r, room⟩ free rfl hge]
    exact .inl ⟨hge, EncOut.failed_status .range (Nat.zero_le 8) free⟩

/-- Settles O3: the three statuses of a call differ, and so do their conditions on the value and the room. -/
theorem encoderReportsRangeBeforeIo : Obligations.EncoderReportsRangeBeforeIo := by
  intro r room free
  rcases encEval_raw_status r room free with ⟨hge, hs⟩ | ⟨hlt, hshort, hs⟩ | ⟨hlt, hroom, hs⟩ <;>
    rw [hs.err, hs.ok]
  · have hnot := Nat.not_lt.mpr hge
    exact ⟨iff_of_true rfl hge, iff_of_false (by decide) fun h => hnot h.1, iff_of_false (by decide) fun h => hnot h.1⟩
  · exact ⟨iff_of_false (by decide) (Nat.not_le.mpr hlt), iff_of_true rfl ⟨hlt, hshort⟩,
      iff_of_false (by decide) fun h => Nat.not_le.mpr hshort h.2⟩
  · exact ⟨iff_of_false (by decide) (Nat.not_le.mpr hlt),
      iff_of_false (by decide) fun h => Nat.not_lt.mpr hroom h.2, iff_of_true rfl ⟨hlt, hroom⟩⟩

end Sys2Proof.Machine

/-! The end of a script: what each line does to the lines and the bytes that are left (R138, R139). -/

namespace Sys2Proof.Machine

/-! ### Every line of R52 runs, and progresses -/

/-- What a line, already taken from the script of `s`, leaves: it is done, with one result; or it is a loop that goes back
to the script after it has read a byte. -/
inductive Progress (s t : State) : Prop where
  | done (script : t.script = s.script) (results : t.results.length = s.results.length + 1) (cap : t.cap = s.cap)
      (rdPos : s.rdPos ≤ t.rdPos)
  | again (k : LoopOp) (rs : List Result) (script : t.script = .untilEmpty k rs :: s.script)
      (results : t.results = s.results) (cap : t.cap = s.cap) (rdPos : s.rdPos < t.rdPos) (unread : s.rdPos < s.cap)

/-- A result that is recorded ends the line: an operation consumes no line of the script itself. -/
theorem Effect.progress {s u : State} {r : Result} (h : Effect s u r) (x : LineResult) : Progress s (record x u) := by
  have hgrew := h.moved.grew
  exact .done hgrew.script (by simp [h.results]) hgrew.cap hgrew.rdPos

theorem Ran.progress {s t : State} (h : Ran s t) : Progress s t := by
  obtain ⟨u, r, hu, rfl⟩ := h
  exact hu.progress _

theorem noCall_progress (s : State) (x : LineResult) : Progress s (record x (noCall s)) :=
  .done rfl (by simp [noCall]) rfl le_rfl

/-- A repetition without an error reads an unread byte. -/
theorem loopBody_reads {k : LoopOp} {s t : State} {r : Result} (h : loopBody k s = .ok (t, r)) (hr : r.isErr = false) :
    ∃ n, 1 ≤ n ∧ n ≤ unreadCount s ∧ HarnessRead n s t := by
  cases k with
  | dec => exact (decOp_effect h).2 hr
  | skip => exact (skipOp_effect h).2 hr

/-- One step of a loop: it has nothing to read, or its repetition is the last, or it goes on. -/
theorem HarnessOk.runLoop_progress {s : State} (h : HarnessOk s) (k : LoopOp) (sofar : List Result) :
    ∃ t, runLoop k sofar s = .next t ∧ Progress s t := by
  rcases Nat.lt_or_ge s.rdPos s.wrPos with hunread | hempty
  · obtain ⟨u, r, hbody⟩ := h.loopBody k
    by_cases hend : r.isErr = true ∨ u.wrPos ≤ u.rdPos
    · exact ⟨_, runLoop_ends sofar hbody hunread hend, (loopBody_effect hbody).progress _⟩
    · obtain ⟨hr, hmore⟩ := not_or.mp hend
      have hok : r.isErr = false := Bool.eq_false_iff.mpr hr
      obtain ⟨n, hpos, -, hread⟩ := loopBody_reads hbody hok
      have hresults := (loopBody_effect hbody).results
      refine ⟨_, runLoop_goes_on sofar hbody hunread hok (Nat.not_le.mp hmore), ?_⟩
      exact .again k _ (congrArg _ hread.script) hresults hread.cap (by rw [hread.rdPos]; omega)
        (hunread.trans_le h.wrLeCap)
  · exact ⟨_, runLoop_empty k sofar hempty, noCall_progress s _⟩

/-- The operations among the lines of R52 have no operand to refuse, and a legal harness has the bytes they read. -/
theorem HarnessOk.exec_next {s : State} (h : HarnessOk s) {i : Instr} (hi : (Line.op i).inScript = true) :
    ∃ t, exec i s = .next t := by
  cases i with
  | enc r => exact ⟨_, rfl⟩
  | size r => exact ⟨_, rfl⟩
  | dec =>
    obtain ⟨t, r, hop⟩ := h.decOp
    exact ⟨_, congrArg finishOr hop⟩
  | encodedSize b =>
    cases b with
    | none =>
      obtain ⟨t, r, hop⟩ := h.esizeOp
      exact ⟨_, congrArg finishOr hop⟩
    | some x => cases hi
  | _ => cases hi

theorem HarnessOk.runLine_progress {s : State} (h : HarnessOk s) {l : Line} (hl : l.inScript = true) :
    ∃ t, runLine l s = .next t ∧ Progress s t := by
  cases l with
  | op i =>
    obtain ⟨t, ht⟩ := h.exec_next hl
    exact ⟨t, ht, (exec_ran ht).progress⟩
  | skip =>
    obtain ⟨u, r, hop⟩ := h.skipOp
    exact ⟨_, congrArg finishOr hop, (skipOp_effect hop).1.progress _⟩
  | untilEmpty k sofar => exact h.runLoop_progress k sofar

theorem Inv.step_progress {s : State} (h : Inv s) {l : Line} {ls : List Line} (hscript : s.script = l :: ls)
    (hl : l.inScript = true) : ∃ t, step s = .next t ∧ Progress (popLine s) t := by
  rw [step_of_script_cons hscript]
  exact h.harness.popLine.runLine_progress hl

/-! ### What progress uses up and what it keeps -/

/-- A line taken from the script is one step of the bound. -/
theorem popLine_fuel {s : State} {l : Line} {ls : List Line} (h : s.script = l :: ls) :
    s.fuel = (popLine s).fuel + 1 := by
  rw [popLine_of_script_cons h]
  simp only [State.fuel, h, List.length_cons]
  omega

/-- A loop that goes back to the script makes up for its line with the byte it read. -/
theorem Progress.fuel_le {s t : State} (h : Progress s t) : t.fuel ≤ s.fuel := by
  rcases h with ⟨hscript, -, hcap, hrd⟩ | ⟨k, rs, hscript, -, hcap, hrd, hunread⟩ <;>
    simp only [State.fuel, hscript, hcap, List.length_cons]
  · omega
  · omega

/-- A line gives its one result when it leaves the script (R139). -/
theorem Progress.results_add_lines {s t : State} (h : Progress s t) :
    t.results.length + t.script.length = s.results.length + (s.script.length + 1) := by
  rcases h with ⟨hscript, hresults, -, -⟩ | ⟨k, rs, hscript, hresults, -, -, -⟩ <;> rw [hscript, hresults]
  · omega
  · rw [List.length_cons]

/-- The line that may go back to the script is a line of R52. -/
theorem Progress.inScript {s t : State} (h : Progress s t) (hlines : ∀ l ∈ s.script, l.inScript = true) :
    ∀ l ∈ t.script, l.inScript = true := by
  rcases h with ⟨hscript, -, -, -⟩ | ⟨k, rs, hscript, -, -, -, -⟩ <;> rw [hscript]
  · exact hlines
  · exact List.forall_mem_cons.mpr ⟨rfl, hlines⟩

/-- Settles O59: a line of R52 runs in a legal harness, and its progress costs a line or a byte of the fuel. -/
theorem scriptLinesAlwaysRun : Obligations.ScriptLinesAlwaysRun := by
  intro s l rest hinv hscript hl
  obtain ⟨t, hstep, hprogress⟩ := hinv.step_progress hscript hl
  exact ⟨t, hstep, by rw [popLine_fuel hscript]; exact Nat.lt_succ_of_le hprogress.fuel_le⟩

/-! ### The end of the script -/

theorem run_succ_of_step {s t : State} (h : step s = .next t) (k : Nat) :
    Host.Core.run core (k + 1) s = Host.Core.run core k t := by
  simp only [Host.Core.run, show core.step s = .next t from h]

/-- Settles O60, by induction on the fuel: each step uses up some, and keeps the sum of results and lines left. -/
theorem everyScriptEnds : Obligations.EveryScriptEnds := by
  intro s hinv hlines
  induction hfuel : s.fuel using Nat.strong_induction_on generalizing s with
  | _ n ih =>
    subst hfuel
    cases hscript : s.script with
    | nil => exact ⟨0, s, Nat.zero_le _, rfl, hscript, rfl⟩
    | cons l ls =>
      obtain ⟨hl, hls⟩ := List.forall_mem_cons.mp (hscript ▸ hlines)
      obtain ⟨t, hstep, hprogress⟩ := hinv.step_progress hscript hl
      have hpop := popLine_of_script_cons hscript
      have hfuel := popLine_fuel hscript
      have hle := hprogress.fuel_le
      have hsum := hprogress.results_add_lines
      obtain ⟨k, u, hk, hrun, hend, hresults⟩ :=
        ih t.fuel (by omega) t (stepKeepsTheInvariant s t hinv hstep)
          (hprogress.inScript (by rw [hpop]; exact hls)) rfl
      refine ⟨k + 1, u, by omega, (run_succ_of_step hstep k).trans hrun, hend, ?_⟩
      rw [hresults, hsum, hpop, List.length_cons]

end Sys2Proof.Machine
